-- ==== Sys2Proof/Config.lean ====
section
/-! DEFINITION. What is fixed when the block is built: P_LOWERCASE and P_STRICT_SYM0 (00_scope R8, R9).
P_LAT (R10) has no place here: no rule of the model depends on it. -/

namespace Sys2Proof

/-- The build parameters. "A model takes `P_LOWERCASE` as an argument" (R8), and `P_STRICT_SYM0` likewise (R9):
the argument is the field `params` of the state, which no step writes. DESIGN CHOICE, safe: log entry 2. -/
structure Params where
  /-- P_LOWERCASE (R8): the decode ROM also maps the 22 lowercase letters. -/
  lowercase : Bool
  /-- P_STRICT_SYM0 (R9): DECODE rejects a symbol 0 whose value is 8–31. -/
  strictSym0 : Bool
  deriving DecidableEq, Repr

/-- "The default is 0" for both parameters (R8, R9). -/
def Params.default : Params := { lowercase := false, strictSym0 := false }

end Sys2Proof
end

