-- ==== Sys2Proof/Word.lean ====
section
/-! DEFINITION. The words ULIDC moves: bytes, bus words, symbols, and the two byte arrays (00_scope R6, R7, R11). -/

namespace Sys2Proof

/-- A byte is 8 bits (R11). -/
abbrev Byte := BitVec 8

/-- A host transaction is one 17-bit word, format BUS17 (R80). -/
abbrev BusWord := BitVec 17

/-- A symbol is a 5-bit value 0–31 (R16). -/
abbrev Symbol := BitVec 5

/-- An identifier value is 16 bytes, byte 0 most significant (R20). -/
abbrev Identifier := Vector Byte 16

/-- A text form is 26 bytes, character 0 first (R25, R93). -/
abbrev Text := Vector Byte 26

end Sys2Proof
end

