-- ==== Sys2Proof/Machine/State.lean ====
section
/-! DEFINITION. The state of ULIDC as plain data (10_state R38), its reset (70_reset_and_hazards R240), and the
reasons a step can stop. The last five fields are the block's surroundings: the reset input, the entropy port's
stream, the order in which the agents move, what the host has read, and the build parameters. -/

namespace Sys2Proof.Machine

/-- The ERRCODE values (R31). -/
inductive ErrCode where
  /-- 0, no error. -/
  | none
  /-- 1, raised by DECODE when TXT_LEN ≠ 26. -/
  | invalidLength
  /-- 2, raised by DECODE for a bad character. -/
  | invalidCharacter
  /-- 3, raised by every command code that R82 does not list. -/
  | illegalCommand
  deriving DecidableEq, Repr

/-- Who moves next. R133 admits every order of host steps and unit steps and D34 a reset in any state, so the order
is data (log entry 1). -/
inductive Turn where
  /-- The host presents one transaction (R132). -/
  | host (w : BusWord)
  /-- The unit takes one step if one is enabled (R133). -/
  | unit
  /-- The reset input takes a level (R241; log entry 6). -/
  | rst (level : Bool)
  deriving DecidableEq, Repr

/-- The reasons for which the machine stops with a fault: there are none. "No admitted bus word and no command code
lacks a meaning, so the model has no refused instruction and no hardware fault" (R234). Safe. -/
inductive Fault where
  deriving DecidableEq, Repr

/-- The reasons for which an instruction has no meaning. -/
inductive Refusal where
  /-- Raised by `exec`'s arm of an instruction that has no meaning yet (no arm does so now). Safe: the run ends. -/
  | notModelled (mnemonic : String)
  deriving DecidableEq, Repr

/-- The state of the machine. -/
structure State where
  /-- BIN[0..15] (R24). -/
  bin : Identifier
  /-- TXT[0..25] (R25). -/
  txt : Text
  /-- TXT_LEN (R26). -/
  txtLen : BitVec 16
  /-- TS_IN (R27). -/
  tsIn : BitVec 64
  /-- CMD (R29). -/
  cmd : Byte
  /-- STATUS.BUSY (R30). -/
  busy : Bool
  /-- STATUS.ERRCODE (R30, R31). -/
  errCode : ErrCode
  /-- ERR_POS (R32). -/
  errPos : Byte
  /-- pend_cmd, meaningful only while busy (R35). -/
  pendCmd : Byte
  /-- ent_cnt, the number of entropy bytes this PACK has taken (R35). -/
  entCnt : Fin 11
  /-- ent_buf, the entropy bytes taken so far, in order (R35). -/
  entBuf : Vector Byte 10
  /-- ent_total, the bytes the entropy port has handed over since reset; observation only (R36). -/
  entTotal : Nat
  /-- The level of the input rst (R241). -/
  rst : Bool
  /-- The bytes the entropy source will offer, the one it offers now first; empty while it offers none (R143, R144;
  log entry 3). -/
  entPort : List Byte
  /-- Who moves next; when empty, the unit does (log entry 1). -/
  turns : List Turn
  /-- The bytes HRD transactions have returned to the host, oldest first: the observation of R19 (log entry 4). -/
  rdLog : List Byte
  /-- P_LOWERCASE and P_STRICT_SYM0 (R8, R9), never written (log entry 2). -/
  params : Params
  deriving DecidableEq, Repr

/-- The machine right after reset (R240). The surroundings have done nothing yet: log entries 1, 2, 3, 4 and 6. -/
def State.reset : State where
  bin := Vector.replicate 16 0x00#8
  txt := Vector.replicate 26 0x00#8
  txtLen := 0x0000#16
  tsIn := 0#64
  cmd := 0x00#8
  busy := false
  errCode := .none
  errPos := 0xFF#8
  pendCmd := 0x00#8
  entCnt := 0
  entBuf := Vector.replicate 10 0x00#8
  entTotal := 0
  rst := false
  entPort := []
  turns := []
  rdLog := []
  params := Params.default

end Sys2Proof.Machine
end

