-- ==== Sys2Proof/Machine/Ops.lean ====
section
/-! DEFINITION. The named operations on the state: register updates, accepting a command (40_host_bus R124), the
entropy step (R133), the commit (R126), reset (70_reset_and_hazards R240, R241). ULIDC takes no exception and
returns from none (60_exceptions R226): an error is a way for a commit to end, `CmdResult.raise`. -/

namespace Sys2Proof.Machine

/-- One byte of BIN (R24): "a host write changes one byte and leaves the other 15 as they were". -/
def State.setBin (s : State) (k : Fin 16) (d : Byte) : State := { s with bin := s.bin.set k d }

/-- One byte of TXT (R25). -/
def State.setTxt (s : State) (i : Fin 26) (d : Byte) : State := { s with txt := s.txt.set i d }

/-- TXT_LEN (R26). -/
def State.setTxtLen (s : State) (v : BitVec 16) : State := { s with txtLen := v }

/-- TS_IN (R27). -/
def State.setTsIn (s : State) (v : BitVec 64) : State := { s with tsIn := v }

/-- A byte goes back to the host over h_rdata (R19, R80, R251). -/
def State.logRead (s : State) (b : Byte) : State := { s with rdLog := s.rdLog ++ [b] }

/-- The agents' order from now on. -/
def State.setTurns (s : State) (ts : List Turn) : State := { s with turns := ts }

/-- The level of rst. -/
def State.setRst (s : State) (level : Bool) : State := { s with rst := level }

/-- Acceptance of the command `d` (R124). ent_cnt and ent_buf are cleared (R35; log entry 5). -/
def State.accept (s : State) (d : Byte) : State :=
  { s with cmd := d, pendCmd := d, entCnt := 0, entBuf := Vector.replicate 10 0x00#8, busy := true }

/-- The entropy step (R133 (1)): the offered byte `e` is taken, `rest` is what the source offers after it. Called only
with ent_cnt < 10. -/
def State.takeEntropy (s : State) (h : s.entCnt.val < 10) (e : Byte) (rest : List Byte) : State :=
  { s with
    entBuf := s.entBuf.set s.entCnt.val e
    entCnt := ⟨s.entCnt.val + 1, by omega⟩
    entTotal := s.entTotal + 1
    entPort := rest }

/-- The staged register writes of a command (R13, R126): the registers it writes, with their new values. -/
structure Writes where
  /-- The new BIN, if the command writes it. -/
  bin : Option Identifier
  /-- The new TXT, if the command writes it. -/
  txt : Option Text
  /-- The new TXT_LEN, if the command writes it. -/
  txtLen : Option (BitVec 16)
  deriving DecidableEq, Repr

/-- `writes = {}`. -/
def Writes.nothing : Writes := { bin := none, txt := none, txtLen := none }

/-- What `Exec(pend_cmd)` returns (R126): its staged writes, or a `raise` with an error and a position (R13). -/
inductive CmdResult where
  /-- err = NONE, pos = 0xFF. -/
  | done (writes : Writes)
  /-- `raise <err>(pos)`: every staged write is discarded. -/
  | raise (err : ErrCode) (pos : Byte)
  deriving DecidableEq, Repr

/-- "apply writes: all staged register writes at once" (R126). -/
def State.applyWrites (s : State) (w : Writes) : State :=
  { s with bin := w.bin.getD s.bin, txt := w.txt.getD s.txt, txtLen := w.txtLen.getD s.txtLen }

/-- The end of every commit: ERRCODE <- err, ERR_POS <- pos, BUSY <- 0 (R126). -/
def State.finish (s : State) (err : ErrCode) (pos : Byte) : State :=
  { s with errCode := err, errPos := pos, busy := false }

/-- The commit (R126), one atomic step. -/
def State.commit (s : State) (r : CmdResult) : State :=
  match r with
  | .done w => (s.applyWrites w).finish .none 0xFF#8
  | .raise err pos => s.finish err pos

/-- The unit's commit step: "enabled when BUSY = 1" (R126). While idle nothing is pending and nothing happens. -/
def unitCommit (s : State) (r : CmdResult) : State := if s.busy then s.commit r else s

/-- ent_ready (R144), 0 while rst = 1 (R241). -/
def entReady (s : State) : Bool := !s.rst && s.busy && s.pendCmd == 0x01#8 && decide (s.entCnt.val < 10)

/-- ent_valid (R144): the source offers a byte. -/
def entValid (s : State) : Bool := !s.entPort.isEmpty

/-- ent_data (R144): the offered byte, while ent_valid = 1. -/
def entData (s : State) : Option Byte := s.entPort.head?

/-- When the commit step is enabled (R126; never while rst = 1, R241). -/
def commitEnabled (s : State) : Bool :=
  !s.rst && s.busy && (s.pendCmd != 0x01#8 || decide (s.entCnt.val = 10))

/-- The state of R240, with rst at 1: what the first clock edge with rst = 1 leaves (R241, R243). The surroundings keep
what is theirs: "any byte it offers while ent_ready = 0 stays with the source", the host keeps what it has read, and
the parameters are fixed when the block is built. -/
def State.assertReset (s : State) : State :=
  { State.reset with rst := true, entPort := s.entPort, turns := s.turns, rdLog := s.rdLog, params := s.params }

/-- The reset input takes a level (R241): 1 resets the block and holds it, 0 lets it go. -/
def State.resetInput (s : State) (level : Bool) : State := if level then s.assertReset else s.setRst false

end Sys2Proof.Machine
end

