-- ==== Sys2Proof/Machine/Control.lean ====
section
/-! DEFINITION. The control commands NOP (40_host_bus R130) and ILLEGAL (R131), each the unit's commit of it. -/

namespace Sys2Proof.Machine

/-- NOP (R130): no writes, no error. -/
def execNop (s : State) : Host.Outcome State Fault Refusal :=
  .next (unitCommit s (.done Writes.nothing))

/-- ILLEGAL (R131): `raise ILLEGAL_COMMAND(0xFF)`, whatever the code; CMD keeps it. -/
def execIllegal (_code : Byte) (s : State) : Host.Outcome State Fault Refusal :=
  .next (unitCommit s (.raise .illegalCommand 0xFF#8))

end Sys2Proof.Machine
end

