-- ==== Sys2Proof/Machine/Bits.lean ====
section
/-! DEFINITION. Byte order and bit splitting, decided once: every multi-byte register, the identifier value and the
text's symbols are big-endian sequences of equal digits (20_memory R64–R66, 30_encoding R86, R87). -/

namespace Sys2Proof.Machine

/-- `{f 0, f 1, ..., f (n-1)}`, `f 0` most significant (R12). -/
def joinBE {w : Nat} : {n : Nat} → (Fin n → BitVec w) → BitVec (w * n)
  | 0, _ => 0#0
  | n + 1, f => joinBE (fun k : Fin n => f k.castSucc) ++ f (Fin.last n)

/-- Digit `k` of `v` read as `n` digits of `w` bits, digit 0 most significant: `v[w(n-k)-1 : w(n-1-k)]`.
With `w = 8` it is byte `k`, with `w = 5` it is symbol `k` (R11, R14). -/
def digitBE (w n : Nat) {m : Nat} (v : BitVec m) (k : Fin n) : BitVec w :=
  v.extractLsb' (w * (n - 1 - k.val)) w

/-- `v` with digit `k` replaced by `d` and every other digit kept. -/
def setDigitBE (w n : Nat) (v : BitVec (w * n)) (k : Fin n) (d : BitVec w) : BitVec (w * n) :=
  joinBE (fun j : Fin n => if j = k then d else digitBE w n v j)

end Sys2Proof.Machine
end

