-- ==== Sys2Proof/Machine/Flags.lean ====
section
/-! DEFINITION. The status bits (10_state R30, R31) and the hardwired CAPS byte (R33). -/

namespace Sys2Proof.Machine

/-- The two ERRCODE bits (R31). -/
def ErrCode.bits : ErrCode → BitVec 2
  | .none => 0#2
  | .invalidLength => 1#2
  | .invalidCharacter => 2#2
  | .illegalCommand => 3#2

/-- STATUS.ERR, which "always equals (ERRCODE != 0)" (R30). -/
def errBit (s : State) : Bool := s.errCode.bits != 0#2

/-- STATUS = {0000, ERRCODE[1:0], (ERRCODE != 0), BUSY} (R30, R120). -/
def statusByte (s : State) : Byte :=
  ((0#4 ++ s.errCode.bits) ++ BitVec.ofBool (errBit s)) ++ BitVec.ofBool s.busy

/-- CAPS = {000000, P_STRICT_SYM0, P_LOWERCASE} (R33, R120). -/
def capsByte (s : State) : Byte :=
  (0#6 ++ BitVec.ofBool s.params.strictSym0) ++ BitVec.ofBool s.params.lowercase

end Sys2Proof.Machine
end

