-- ==== Sys2Proof/Machine/Operands.lean ====
section
/-! DEFINITION. The register space: the map of 20_memory R61, its reads (40_host_bus R120) and writes (R121), the
values put together from register bytes (30_encoding R83, 00_scope R14), and the TS_OUT view (44_timestamp R210). -/

namespace Sys2Proof.Machine

/-- What stands at an address of the register space (R61). -/
inductive Loc where
  /-- BIN[k]. -/
  | bin (k : Fin 16)
  /-- TXT[i]. -/
  | txt (i : Fin 26)
  /-- Byte j of TXT_LEN, byte 0 = bits 15:8. -/
  | txtLen (j : Fin 2)
  /-- Byte j of TS_IN, byte 0 = bits 63:56. -/
  | tsIn (j : Fin 8)
  /-- Byte j of TS_OUT, byte 0 = bits 63:56. -/
  | tsOut (j : Fin 8)
  /-- CMD. -/
  | cmd
  /-- STATUS. -/
  | status
  /-- ERR_POS. -/
  | errPos
  /-- CAPS. -/
  | caps
  /-- 0x2C–0x2F and 0x44–0xFF. -/
  | reserved
  deriving DecidableEq, Repr

/-- The register map (R61). -/
def locOf (a : Byte) : Loc :=
  if _ : a.toNat ≤ 0x0F then .bin ⟨a.toNat, by omega⟩
  else if _ : a.toNat ≤ 0x29 then .txt ⟨a.toNat - 0x10, by omega⟩
  else if _ : a.toNat ≤ 0x2B then .txtLen ⟨a.toNat - 0x2A, by omega⟩
  else if _ : a.toNat ≤ 0x2F then .reserved
  else if _ : a.toNat ≤ 0x37 then .tsIn ⟨a.toNat - 0x30, by omega⟩
  else if _ : a.toNat ≤ 0x3F then .tsOut ⟨a.toNat - 0x38, by omega⟩
  else if a.toNat = 0x40 then .cmd
  else if a.toNat = 0x41 then .status
  else if a.toNat = 0x42 then .errPos
  else if a.toNat = 0x43 then .caps
  else .reserved

/-- TS_OUT = zext_64({BIN[0], ..., BIN[5]}) (R210). -/
def tsOut (b : Identifier) : BitVec 64 :=
  (joinBE (fun k : Fin 6 => b[k.val]) : BitVec (8 * 6)).setWidth 64

/-- V = {BIN[0], ..., BIN[15]}, the numeric reading of an identifier value (R14, R20). -/
def numeric (b : Identifier) : BitVec 128 := joinBE (fun k : Fin 16 => b[k.val])

/-- The identifier value whose numeric reading is `v`: byte k is v[127-8k : 120-8k] (R87). -/
def ofNumeric (v : BitVec 128) : Identifier := Vector.ofFn (fun k : Fin 16 => digitBE 8 16 v k)

/-- The byte an HRD of a location returns (R120). -/
def readLoc (s : State) : Loc → Byte
  | .bin k => s.bin[k.val]
  | .txt i => s.txt[i.val]
  | .txtLen j => digitBE 8 2 s.txtLen j
  | .tsIn j => digitBE 8 8 s.tsIn j
  | .tsOut j => digitBE 8 8 (tsOut s.bin) j
  | .cmd => s.cmd
  | .status => statusByte s
  | .errPos => s.errPos
  | .caps => capsByte s
  | .reserved => 0x00#8

/-- The byte an HRD of address `a` returns (R120). -/
def readByte (s : State) (a : Byte) : Byte := readLoc s (locOf a)

/-- What an HWR of `d` does at a location while the unit is idle (R121): the addressed byte changes, or a command is
accepted, or, where the location is read-only or reserved, nothing happens (R123). -/
def writeLoc (s : State) (d : Byte) : Loc → State
  | .bin k => s.setBin k d
  | .txt i => s.setTxt i d
  | .txtLen j => s.setTxtLen (setDigitBE 8 2 s.txtLen j d)
  | .tsIn j => s.setTsIn (setDigitBE 8 8 s.tsIn j d)
  | .cmd => s.accept d
  | .tsOut _ => s
  | .status => s
  | .errPos => s
  | .caps => s
  | .reserved => s

/-- What an HWR of `d` at address `a` does while the unit is idle (R121). -/
def writeByte (s : State) (a d : Byte) : State := writeLoc s d (locOf a)

end Sys2Proof.Machine
end

