-- ==== Sys2Proof/Machine/Rom.lean ====
section
/-! DEFINITION. The two symbol tables EncROM and DecROM (10_state R34; contents 30_encoding R85, R88–R90).
The ASCII codes are those of R88 and R89, which the spec takes from general knowledge (log entry 14). -/

namespace Sys2Proof.Machine

/-- The 32 entries of EncROM, the ASCII codes of `0123456789ABCDEFGHJKMNPQRSTVWXYZ` (R85, R88). -/
def encRomTable : Vector Byte 32 :=
  #v[0x30, 0x31, 0x32, 0x33, 0x34, 0x35, 0x36, 0x37,
     0x38, 0x39, 0x41, 0x42, 0x43, 0x44, 0x45, 0x46,
     0x47, 0x48, 0x4A, 0x4B, 0x4D, 0x4E, 0x50, 0x51,
     0x52, 0x53, 0x54, 0x56, 0x57, 0x58, 0x59, 0x5A]

/-- `EncROM[s]` (R88). Every 5-bit index has an entry. -/
def encRom (s : Symbol) : Byte := encRomTable[s.toFin]

/-- The sentinel word of DecROM (R89, R90). -/
def sentinel : Byte := 0xFF#8

/-- Row 3x of R89's table. -/
def decRomRow3 : Vector Byte 16 :=
  #v[0x00, 0x01, 0x02, 0x03, 0x04, 0x05, 0x06, 0x07, 0x08, 0x09, 0xFF, 0xFF, 0xFF, 0xFF, 0xFF, 0xFF]

/-- Row 4x of R89's table, and row 6x when P_LOWERCASE = 1. -/
def decRomRow4 : Vector Byte 16 :=
  #v[0xFF, 0x0A, 0x0B, 0x0C, 0x0D, 0x0E, 0x0F, 0x10, 0x11, 0xFF, 0x12, 0x13, 0xFF, 0x14, 0x15, 0xFF]

/-- Row 5x of R89's table, and row 7x when P_LOWERCASE = 1. -/
def decRomRow5 : Vector Byte 16 :=
  #v[0x16, 0x17, 0x18, 0x19, 0x1A, 0xFF, 0x1B, 0x1C, 0x1D, 0x1E, 0x1F, 0xFF, 0xFF, 0xFF, 0xFF, 0xFF]

/-- `DecROM[c]` for a build with P_LOWERCASE = `lowercase` (R89). -/
def decRom (lowercase : Bool) (c : Byte) : Byte :=
  let lo : Fin 16 := (c.extractLsb' 0 4).toFin
  match (c.extractLsb' 4 4).toNat with
  | 3 => decRomRow3[lo]
  | 4 => decRomRow4[lo]
  | 5 => decRomRow5[lo]
  | 6 => if lowercase then decRomRow4[lo] else sentinel
  | 7 => if lowercase then decRomRow5[lo] else sentinel
  | _ => sentinel

/-- `w[4:0]`, the symbol of a DecROM word that is no sentinel (R90). -/
def romSymbol (w : Byte) : Symbol := w.extractLsb' 0 5

end Sys2Proof.Machine
end

