-- ==== Sys2Proof/Machine/Decoder.lean ====
section
/-! DEFINITION. The decoder: DECODE (43_decode R180–R185). -/

namespace Sys2Proof.Machine

/-- The symbol a character decodes to, s[i] = w[4:0] of its DecROM word (R180). -/
def charSymbol (p : Params) (c : Byte) : Symbol := romSymbol (decRom p.lowercase c)

/-- Whether a character is outside the decode ROM's valid set (R182). -/
def isSentinel (p : Params) (c : Byte) : Bool := decRom p.lowercase c == sentinel

/-- Whether position i is bad: by the sentinel (R182), or at i = 0, when P_STRICT_SYM0 = 1, by a symbol above 7
(R183). -/
def isBad (p : Params) (t : Text) (i : Fin 26) : Bool :=
  isSentinel p t[i.val] || (i.val == 0 && p.strictSym0 && decide (7 < (charSymbol p t[i.val]).toNat))

/-- The lowest bad index, scanning left to right (R180, R182). -/
def firstBad (p : Params) (t : Text) : Option (Fin 26) := (List.finRange 26).find? (fun i => isBad p t i)

/-- Bit assembly: W' = {s0, ..., s25}, V' = W'[127:0], BIN'[k] = V'[127-8k : 120-8k] (R87). -/
def assemble (sym : Fin 26 → Symbol) : Identifier :=
  ofNumeric ((joinBE sym : BitVec (5 * 26)).setWidth 128)

/-- The identifier value of a text all of whose characters are good (R180). -/
def valueOf (p : Params) (t : Text) : Identifier := assemble (fun i => charSymbol p t[i.val])

/-- `Exec(0x03)` (R180): the length check first (R181), then the character check (R182, R183), then the value. -/
def decodeResult (p : Params) (len : BitVec 16) (t : Text) : CmdResult :=
  if len ≠ 26#16 then .raise .invalidLength 0xFF#8
  else
    match firstBad p t with
    | some i => .raise .invalidCharacter (BitVec.ofNat 8 i.val)
    | none => .done { bin := some (valueOf p t), txt := none, txtLen := none }

/-- DECODE (R180): the unit's commit of it. -/
def execDecode (s : State) : Host.Outcome State Fault Refusal :=
  .next (unitCommit s (decodeResult s.params s.txtLen s.txt))

end Sys2Proof.Machine
end

