-- ==== Sys2Proof/Machine/Encoder.lean ====
section
/-! DEFINITION. The encoder: ENCODE (42_encode R160). -/

namespace Sys2Proof.Machine

/-- Symbol i of an identifier value: W[129-5i : 125-5i] with W = zext_130(V) (R14, R86). -/
def symbolOf (b : Identifier) (i : Fin 26) : Symbol := digitBE 5 26 ((numeric b).setWidth 130) i

/-- The text form of an identifier value: TXT[i] = EncROM[sym i] (R160). -/
def textOf (b : Identifier) : Text := Vector.ofFn (fun i : Fin 26 => encRom (symbolOf b i))

/-- `Exec(0x02)` (R160): writes TXT and TXT_LEN. -/
def encodeResult (s : State) : CmdResult :=
  .done { bin := none, txt := some (textOf s.bin), txtLen := some 26#16 }

/-- ENCODE (R160): the unit's commit of it. -/
def execEncode (s : State) : Host.Outcome State Fault Refusal :=
  .next (unitCommit s (encodeResult s))

end Sys2Proof.Machine
end

