-- ==== Sys2Proof/Machine/HostBus.lean ====
section
/-! DEFINITION. The two bus transactions HRD (40_host_bus R120) and HWR (R121). -/

namespace Sys2Proof.Machine

/-- HRD (R120): the byte at `addr` goes back to the host; no register changes (R69). -/
def execHrd (addr : Byte) (s : State) : Host.Outcome State Fault Refusal :=
  .next (s.logRead (readByte s addr))

/-- HWR (R121): ignored while busy (R127), else the write takes effect at once. -/
def execHwr (addr data : Byte) (s : State) : Host.Outcome State Fault Refusal :=
  .next (if s.busy then s else writeByte s addr data)

end Sys2Proof.Machine
end

