-- ==== Sys2Proof/Machine/Packer.lean ====
section
/-! DEFINITION. The field packer: PACK (41_pack R140–R144). -/

namespace Sys2Proof.Machine

/-- TS_IN[47:0]: the packer "keeps TS_IN[47:0] and discards TS_IN[63:48]" (R142). -/
def ts48 (t : BitVec 64) : BitVec 48 := t.extractLsb' 0 48

/-- The value PACK builds: BIN[k] = ts48[47-8k : 40-8k] for k = 0..5, BIN[6+k] = ent_buf[k] for k = 0..9 (R140). -/
def packValue (t : BitVec 64) (e : Vector Byte 10) : Identifier :=
  Vector.ofFn (fun k : Fin 16 =>
    if h : k.val < 6 then digitBE 8 6 (ts48 t) ⟨k.val, h⟩ else e[k.val - 6]'(by omega))

/-- `Exec(0x01)` (R140). -/
def packResult (s : State) : CmdResult :=
  .done { bin := some (packValue s.tsIn s.entBuf), txt := none, txtLen := none }

/-- The unit's step on a pending PACK: with ent_cnt = 10 the commit (R126, R140), with fewer an entropy step if the
source offers a byte (R133, R144), else it waits: BUSY stays 1, the hang of R234 if no byte ever comes. While idle
nothing is pending. -/
def execPack (s : State) : Host.Outcome State Fault Refusal :=
  .next (
    if s.busy then
      if h : s.entCnt.val < 10 then
        match s.entPort with
        | [] => s
        | e :: rest => s.takeEntropy h e rest
      else s.commit (packResult s)
    else s)

end Sys2Proof.Machine
end

