-- ==== Sys2Proof/Syntax.lean ====
section
/-! DEFINITION. The instructions of ULIDC (00_scope R3): the two bus transactions and the command codes. -/

namespace Sys2Proof

/-- One constructor per mnemonic of spec/opcode_table.json. The six ILLEGAL rows are one instruction split by mask
("the six ILLEGAL rows are disjoint and cover exactly 0x04-0xFF"), so they share one constructor that keeps the
whole code. DESIGN CHOICE, safe: log entry 8. -/
inductive Instr where
  /-- HRD: host read of one byte at `addr` (R120). Its WDATA bits are ignored (R80) and dropped: log entry 7. -/
  | hrd (addr : Byte)
  /-- HWR: host write of the byte `data` at `addr` (R121). -/
  | hwr (addr data : Byte)
  /-- NOP, command code 0x00 (R130). -/
  | nop
  /-- PACK, command code 0x01 (R140). -/
  | pack
  /-- ENCODE, command code 0x02 (R160). -/
  | encode
  /-- DECODE, command code 0x03 (R180). -/
  | decode
  /-- ILLEGAL, command codes 0x04–0xFF (R131). -/
  | illegal (code : Byte)
  deriving DecidableEq, Repr

end Sys2Proof
end

