-- ==== Sys2Proof/Machine/Dispatch.lean ====
section
/-! DEFINITION. exec: one arm per constructor of Instr. -/

namespace Sys2Proof.Machine

def exec (i : Instr) (s : State) : Host.Outcome State Fault Refusal :=
  match i with
  | .hrd addr => Sys2Proof.Machine.execHrd addr s
  | .hwr addr data => Sys2Proof.Machine.execHwr addr data s
  | .nop => Sys2Proof.Machine.execNop s
  | .pack => Sys2Proof.Machine.execPack s
  | .encode => Sys2Proof.Machine.execEncode s
  | .decode => Sys2Proof.Machine.execDecode s
  | .illegal code => Sys2Proof.Machine.execIllegal code s

end Sys2Proof.Machine
end

