-- ==== Sys2Proof/WellFormed.lean ====
section
/-! DEFINITION. Which terms of `Instr` some word of the spec's encodings stands for. -/

namespace Sys2Proof

/-- Every operand byte of HRD and HWR is legal (R81); an ILLEGAL code is one that R82 does not list (R84). -/
def Instr.wf : Instr → Bool
  | .hrd _ => true
  | .hwr _ _ => true
  | .nop => true
  | .pack => true
  | .encode => true
  | .decode => true
  | .illegal code => 4 ≤ code.toNat

end Sys2Proof
end

