-- ==== Sys2Proof/Decode.lean ====
section
/-! DEFINITION. Decoding of the two formats BUS17 (30_encoding R80, R81) and CMD8 (R82), and the encoder after it. -/

namespace Sys2Proof

/-- The two formats of spec/opcode_table.json. -/
inductive Format where
  /-- The 17-bit host transaction (R80). -/
  | bus17
  /-- The 8-bit command byte (R82). -/
  | cmd8
  deriving DecidableEq, Repr

/-- An encoded instruction: a bus word, or a command byte. -/
inductive Encoded where
  /-- A BUS17 word. -/
  | bus (w : BusWord)
  /-- A CMD8 byte, "the whole 8-bit WDATA of an HWR to address 0x40 that is accepted while idle" (R82). -/
  | cmd (c : Byte)
  deriving DecidableEq, Repr

/-- Why a pattern of bits is no instruction. -/
inductive DecodeError where
  /-- Bits stand above the top bit of the format (bit 16 of BUS17, bit 7 of CMD8): no such word exists. Safe. -/
  | tooWide
  deriving DecidableEq, Repr

/-- WE, bit 16 of a BUS17 word (R80). -/
def busWe (w : BusWord) : Bool := w.getLsbD 16

/-- ADDR, bits 15:8 of a BUS17 word (R80). -/
def busAddr (w : BusWord) : Byte := w.extractLsb' 8 8

/-- WDATA, bits 7:0 of a BUS17 word (R80). -/
def busData (w : BusWord) : Byte := w.extractLsb' 0 8

/-- "WE alone selects the transaction"; every one of the 2^17 words is a valid transaction (R81). -/
def decodeBus (w : BusWord) : Instr :=
  if busWe w then .hwr (busAddr w) (busData w) else .hrd (busAddr w)

/-- The command codes of R82; "all eight bits take part in the decode". -/
def decodeCmd (c : Byte) : Instr :=
  if c = 0x00#8 then .nop
  else if c = 0x01#8 then .pack
  else if c = 0x02#8 then .encode
  else if c = 0x03#8 then .decode
  else .illegal c

/-- Decoding of an encoded instruction. Neither format has an illegal word (R81, R84). -/
def decodeEncoded : Encoded → Instr
  | .bus w => decodeBus w
  | .cmd c => decodeCmd c

/-- Decoding of a number read in a format. A number that has bits above the format's top bit is rejected by name. -/
def decodeNat (f : Format) (w : Nat) : Except DecodeError Instr :=
  match f with
  | .bus17 => if w < 2 ^ 17 then .ok (decodeBus (BitVec.ofNat 17 w)) else .error .tooWide
  | .cmd8 => if w < 2 ^ 8 then .ok (decodeCmd (BitVec.ofNat 8 w)) else .error .tooWide

/-- The format of a row from its number of bits: a CMD8 row has 8, a BUS17 row has 17, in whole bytes 24 (log entry 12). -/
def formatOfBits (nbits : Nat) : Format := if nbits ≤ 8 then .cmd8 else .bus17

/-- What the decoder reads from the bits `w` of a row of spec/opcode_table.json that has `nbits` bits. -/
def decodeTableWord (nbits w : Nat) : Option Instr :=
  match decodeNat (formatOfBits nbits) w with
  | .ok i => some i
  | .error _ => none

/-- The BUS17 word {WE, ADDR, WDATA} (R80). -/
def busWord (we : Bool) (addr data : Byte) : BusWord := (BitVec.ofBool we ++ addr) ++ data

/-- The words of an instruction. WDATA of an HRD is ignored by the block (R80); the encoder writes 0 there (log entry 7). -/
def encode : Instr → Encoded
  | .hrd addr => .bus (busWord false addr 0x00#8)
  | .hwr addr data => .bus (busWord true addr data)
  | .nop => .cmd 0x00#8
  | .pack => .cmd 0x01#8
  | .encode => .cmd 0x02#8
  | .decode => .cmd 0x03#8
  | .illegal code => .cmd code

end Sys2Proof
end

