-- ==== Sys2Proof/Machine/Fetch.lean ====
section
/-! DEFINITION. Whose turn it is, and which instruction that turn runs. ULIDC fetches nothing from memory (20_memory
R74): a host turn's instruction is its bus word, a unit turn's instruction is the byte in pend_cmd. -/

namespace Sys2Proof.Machine

/-- What a turn comes to. -/
inductive Fetched where
  /-- An instruction to run, in the given state. -/
  | run (i : Instr) (s : State)
  /-- No instruction runs; the given state is the next one. -/
  | quiet (s : State)
  deriving DecidableEq, Repr

/-- A host transaction while rst = 1: it is ignored, "and an HRD returns 0x00" (R241). -/
def hostDuringReset (w : BusWord) (s : State) : State :=
  if busWe w then s else s.logRead 0x00#8

/-- The host's turn (R132): its transaction is always performed, except while rst = 1 (R241). -/
def hostTurn (w : BusWord) (s : State) : Fetched :=
  if s.rst then .quiet (hostDuringReset w s) else .run (decodeBus w) s

/-- The unit's turn (R133): the pending command, or nothing while idle or while rst = 1 (R241). -/
def unitTurn (s : State) : Fetched :=
  if s.rst then .quiet s
  else if s.busy then .run (decodeCmd s.pendCmd) s
  else .quiet s

/-- The next turn, taken off the list. With no turn listed the unit moves: the weak fairness of R250 (log entry 1). -/
def fetch (s : State) : Fetched :=
  match s.turns with
  | [] => unitTurn s
  | .unit :: ts => unitTurn (s.setTurns ts)
  | .host w :: ts => hostTurn w (s.setTurns ts)
  | .rst level :: ts => .quiet ((s.setTurns ts).resetInput level)

/-- `s` with an instruction placed so that the next step runs it. A bus word becomes the next turn. A command byte is
accepted, as an HWR to 0x40 would (R124), and the unit moves next. rst is 0 for both (log entry 9). -/
def State.placeWord (s : State) (f : Format) (w : Nat) : State :=
  match f with
  | .bus17 => (s.setRst false).setTurns (.host (BitVec.ofNat 17 w) :: s.turns)
  | .cmd8 => ((s.setRst false).accept (BitVec.ofNat 8 w)).setTurns (.unit :: s.turns)

end Sys2Proof.Machine
end

