-- ==== Sys2Proof/Machine/Step.lean ====
section
/-! DEFINITION. One step of the machine: the next agent's turn. -/

namespace Sys2Proof.Machine

/-- One step: one host transaction, one unit step, or one change of the reset input. -/
def step (s : State) : Host.Outcome State Fault Refusal :=
  match fetch s with
  | .run i s' => exec i s'
  | .quiet s' => .next s'

/-- `s` with the instruction of an opcode-table row placed where `step` takes its next instruction from. -/
def State.withFetchWord (s : State) (nbits w : Nat) : State := s.placeWord (formatOfBits nbits) w

end Sys2Proof.Machine
end

