-- ==== Sys2Proof/Machine/Order.lean ====
section
/-! DEFINITION. The ordering of byte arrays (10_state R22), a relation for laws only: the block has no comparator
(00_scope R5 (e)). -/

namespace Sys2Proof.Machine

/-- `a < b`: at the first index where they differ, the byte of `a` is the smaller as an unsigned number (R22). -/
def bytesLt {n : Nat} (a b : Vector Byte n) : Prop :=
  ∃ k : Fin n, (∀ j : Fin n, j < k → a[j.val] = b[j.val]) ∧ a[k.val].toNat < b[k.val].toNat

end Sys2Proof.Machine
end

