-- ==== Sys2Proof/Machine/Pseudo.lean ====
section
/-! DEFINITION. The pseudo-instructions of host programs (30_encoding R94, R95): each is the list of BUS17 words it
expands to. `POLL` is one STATUS read here: the host repeats it until bit 0 is 0, which is the host's own affair. -/

namespace Sys2Proof.Machine.Pseudo

/-- `HRD a`. -/
def hrd (a : Byte) : BusWord := busWord false a 0x00#8

/-- `HWR a, d`. -/
def hwr (a d : Byte) : BusWord := busWord true a d

/-- `CMD <code>`: `HWR 0x40, code`. -/
def cmd (code : Byte) : List BusWord := [hwr 0x40#8 code]

/-- One read of `POLL` (also `CHKOK`): `HRD 0x41`. -/
def pollOnce : List BusWord := [hrd 0x41#8]

/-- `n` consecutive addresses from `base`, one transaction each. -/
def span (base : Byte) (n : Nat) (f : Byte → Fin n → BusWord) : List BusWord :=
  (List.finRange n).map (fun k => f (base + BitVec.ofNat 8 k.val) k)

/-- `WRTS t`. -/
def wrts (t : BitVec 64) : List BusWord := span 0x30#8 8 (fun a j => hwr a (digitBE 8 8 t j))

/-- `WRLEN n`. -/
def wrlen (n : BitVec 16) : List BusWord := span 0x2A#8 2 (fun a j => hwr a (digitBE 8 2 n j))

/-- `WRTXT "c0…c(n−1)"`; it "cannot be spelled" for n > 26. -/
def wrtxt (cs : List Byte) : Option (List BusWord) :=
  if cs.length ≤ 26 then
    some (span 0x10#8 cs.length (fun a i => hwr a (cs.get i)) ++ wrlen (BitVec.ofNat 16 cs.length))
  else none

/-- `WRBIN b0 … b15`. -/
def wrbin (b : Identifier) : List BusWord := span 0x00#8 16 (fun a k => hwr a b[k.val])

/-- `RDBIN`. -/
def rdbin : List BusWord := span 0x00#8 16 (fun a _ => hrd a)

/-- `RDTXT`. -/
def rdtxt : List BusWord := span 0x10#8 26 (fun a _ => hrd a)

/-- `RDTS`. -/
def rdts : List BusWord := span 0x38#8 8 (fun a _ => hrd a)

end Sys2Proof.Machine.Pseudo
end

