-- ==== Sys2Proof/Safety.lean ====
section
/-! DEFINITION. What counts as a sound state of ULIDC, and the words claims about its runs use. -/

namespace Sys2Proof

open Sys2Proof.Machine

/-- What a claim about ULIDC observes (00_scope R19): the bytes HRD returned, and the entropy bytes consumed. -/
def observe (s : State) : List Byte × Nat := (s.rdLog, s.entTotal)

/-- The unit's registers and hidden state stand as after reset (R240), whatever the surroundings. -/
def blockIsReset (s : State) : Prop :=
  s.bin = State.reset.bin ∧ s.txt = State.reset.txt ∧ s.txtLen = State.reset.txtLen ∧ s.tsIn = State.reset.tsIn ∧
  s.cmd = State.reset.cmd ∧ s.busy = State.reset.busy ∧ s.errCode = State.reset.errCode ∧
  s.errPos = State.reset.errPos ∧ s.pendCmd = State.reset.pendCmd ∧ s.entCnt = State.reset.entCnt ∧
  s.entBuf = State.reset.entBuf ∧ s.entTotal = State.reset.entTotal

/-- The invariant of the machine: ERR_POS is an index exactly after INVALID_CHARACTER and 0xFF otherwise (R32); while
busy, CMD is the pending code (R29, R127) and only a PACK has taken entropy (R35); every byte taken has been counted
(R36); while rst = 1 the block stands as after reset (R241). -/
structure Inv (s : State) : Prop where
  /-- ERR_POS is 0..25 after INVALID_CHARACTER (R32). -/
  errPos_of_char : s.errCode = .invalidCharacter → s.errPos.toNat < 26
  /-- ERR_POS is 0xFF otherwise (R32). -/
  errPos_of_other : s.errCode ≠ .invalidCharacter → s.errPos = 0xFF#8
  /-- CMD reads as the pending code while busy (R128). -/
  cmd_pending : s.busy = true → s.cmd = s.pendCmd
  /-- ent_cnt is "always 0 for other commands" (R35). -/
  entropy_only_pack : s.busy = true → s.pendCmd ≠ 0x01#8 → s.entCnt = 0
  /-- ent_total counts at least the bytes of the current PACK (R36). -/
  entCnt_counted : s.entCnt.val ≤ s.entTotal
  /-- The state of R240 stays while rst = 1 (R241). -/
  held_in_reset : s.rst = true → blockIsReset s

/-- Two states that an HRD and the unit's results cannot tell apart: equal but for ent_buf at and above ent_cnt,
which is "never read before written" (R124). -/
def sameButUnreadEntropy (s t : State) : Prop :=
  { s with entBuf := t.entBuf } = t ∧ ∀ k : Fin 10, k.val < s.entCnt.val → s.entBuf[k.val] = t.entBuf[k.val]

/-- `t` stands in the middle of the PACK that was accepted in `s` and has taken ent_cnt bytes since: the registers are
those of `s`, and the bytes taken are the first ones the source offered in `s`, in order (R125, R127, R141). -/
structure PackProgress (s t : State) : Prop where
  /-- The PACK is still pending. -/
  pending : t.rst = false ∧ t.busy = true ∧ t.pendCmd = 0x01#8
  /-- No register has changed. -/
  registers : t.bin = s.bin ∧ t.txt = s.txt ∧ t.txtLen = s.txtLen ∧ t.tsIn = s.tsIn ∧ t.cmd = s.cmd ∧
    t.errCode = s.errCode ∧ t.errPos = s.errPos
  /-- The bytes in ent_buf are the first ent_cnt bytes of the source's stream. -/
  taken : ∀ k : Fin 10, k.val < t.entCnt.val → s.entPort[k.val]? = some t.entBuf[k.val]
  /-- The source still holds the rest. -/
  left : t.entPort = s.entPort.drop t.entCnt.val
  /-- Each was counted once. -/
  counted : t.entTotal = s.entTotal + t.entCnt.val

/-- The turn that `step` takes next belongs to the unit: it heads the list, or the list is empty (log entry 1). -/
def unitMovesNext (s : State) : Prop := s.turns = [] ∨ ∃ ts, s.turns = .unit :: ts

/-- The turn that `step` takes next is no change of the reset input. -/
def noResetNext (s : State) : Prop := ∀ level ts, s.turns ≠ .rst level :: ts

/-- A character that DECODE accepts at position `i` (R182, R183): its DecROM word is no sentinel, and at position 0,
when P_STRICT_SYM0 = 1, it is at most 7. -/
def goodAt (p : Params) (t : Text) (i : Fin 26) : Prop :=
  decRom p.lowercase t[i.val] ≠ 0xFF#8 ∧
  (i = 0 → p.strictSym0 = true → (decRom p.lowercase t[i.val]).toNat ≤ 7)

end Sys2Proof
end

