-- ==== Sys2Proof/Certificates/Slice0/Obligations.lean ====
section
/-! DEFINITION. The statements about ULIDC, taken from the numbered rules of spec/. A byte an HRD returns is the byte
appended to `rdLog` (log entry 4); the order of the agents is `turns` (log entry 1); the source's bytes are `entPort`
(log entry 3). -/

open Sys2Proof Sys2Proof.Machine

/-! ### Encodings -/

/-- Words of 95_test_vectors section 4 and one byte of each CMD8 row decode to what they stand for. -/
def Obligations.WordsOfTheSpecDecode : Prop :=
  decodeBus 0x13781#17 = .hwr 0x37#8 0x81#8 ∧ decodeBus 0x04100#17 = .hrd 0x41#8 ∧
  decodeBus 0x1407F#17 = .hwr 0x40#8 0x7F#8 ∧ decodeBus 0x00200#17 = .hrd 0x02#8 ∧
  decodeCmd 0x00#8 = .nop ∧ decodeCmd 0x01#8 = .pack ∧ decodeCmd 0x02#8 = .encode ∧ decodeCmd 0x03#8 = .decode ∧
  decodeCmd 0x04#8 = .illegal 0x04#8 ∧ decodeCmd 0x08#8 = .illegal 0x08#8 ∧ decodeCmd 0x10#8 = .illegal 0x10#8 ∧
  decodeCmd 0x20#8 = .illegal 0x20#8 ∧ decodeCmd 0x40#8 = .illegal 0x40#8 ∧ decodeCmd 0x80#8 = .illegal 0x80#8

/-- Decoding an encoded well-formed instruction gives it back, with every operand at every value. The encoder and the
dropped WDATA of HRD are the model's (log entry 7). -/
def Obligations.DecodeOfEncodeIsSame : Prop :=
  ∀ i : Instr, i.wf = true → decodeEncoded (encode i) = i

/-- R81: WE alone selects the transaction, and no word is illegal. -/
def Obligations.WeSelectsTransaction : Prop :=
  ∀ w : BusWord,
    (w.getLsbD 16 = false → decodeBus w = .hrd (w.extractLsb' 8 8)) ∧
    (w.getLsbD 16 = true → decodeBus w = .hwr (w.extractLsb' 8 8) (w.extractLsb' 0 8)) ∧
    (decodeBus w).wf = true

/-- All eight bits of a command byte take part in the decode: each byte has exactly one meaning. -/
def Obligations.CommandByteHasOneMeaning : Prop :=
  ∀ c : Byte,
    (decodeCmd c = .nop ↔ c.toNat = 0) ∧ (decodeCmd c = .pack ↔ c.toNat = 1) ∧
    (decodeCmd c = .encode ↔ c.toNat = 2) ∧ (decodeCmd c = .decode ↔ c.toNat = 3) ∧
    (decodeCmd c = .illegal c ↔ 4 ≤ c.toNat) ∧ (decodeCmd c).wf = true

/-- R85, R88: entry s of EncROM is the code of character s of the alphabet. The codes are US-ASCII, which the spec takes
"from general knowledge, not in source" (log entry 14). -/
def Obligations.EncRomIsAlphabet : Prop :=
  ∀ s : Symbol, ("0123456789ABCDEFGHJKMNPQRSTVWXYZ".toList.map Char.toNat)[s.toNat]? = some (encRom s).toNat

/-- R89, R90: DecROM holds s at the code of character s, at the lowercase code too when P_LOWERCASE = 1, and the sentinel
everywhere else; 32 or 54 entries are valid. -/
def Obligations.DecRomInvertsEncRom : Prop :=
  ∀ low : Bool,
    (∀ s : Symbol, decRom low (encRom s) = s.setWidth 8) ∧
    (low = true → ∀ s : Symbol, 10 ≤ s.toNat → decRom low (encRom s + 0x20#8) = s.setWidth 8) ∧
    (∀ c : Byte, (∀ s : Symbol, c ≠ encRom s) →
      (∀ s : Symbol, 10 ≤ s.toNat → low = true → c ≠ encRom s + 0x20#8) → decRom low c = 0xFF#8) ∧
    (∀ c : Byte, decRom low c = 0xFF#8 ∨ (decRom low c).toNat < 32) ∧
    ((List.finRange 256).filter (fun c => decRom low (BitVec.ofFin c) != 0xFF#8)).length = (if low then 54 else 32)

/-- R92: EncROM is strictly increasing. -/
def Obligations.EncRomStrictlyIncreasing : Prop :=
  ∀ s t : Symbol, s.toNat < t.toNat → (encRom s).toNat < (encRom t).toNat

/-! ### The host bus -/

/-- R120: a word with WE = 0 and ADDR = a is the HRD of a, and that returns the byte of the register map and changes
nothing else, busy or idle. -/
def Obligations.HrdReturnsMappedByte : Prop :=
  ∀ (s : State) (a : Byte),
    (∀ w : BusWord, w.getLsbD 16 = false → w.extractLsb' 8 8 = a → decodeBus w = .hrd a) ∧ ∃ b : Byte,
    exec (.hrd a) s = .next { s with rdLog := s.rdLog ++ [b] } ∧
    (∀ k : Fin 16, a.toNat = k.val → b = s.bin[k.val]) ∧
    (∀ i : Fin 26, a.toNat = 0x10 + i.val → b = s.txt[i.val]) ∧
    (a.toNat = 0x2A → b = s.txtLen.extractLsb' 8 8) ∧
    (a.toNat = 0x2B → b = s.txtLen.extractLsb' 0 8) ∧
    (0x2C ≤ a.toNat → a.toNat ≤ 0x2F → b = 0x00#8) ∧
    (∀ j : Fin 8, a.toNat = 0x30 + j.val → b = s.tsIn.extractLsb' (56 - 8 * j.val) 8) ∧
    (∀ j : Fin 8, a.toNat = 0x38 + j.val → b = (tsOut s.bin).extractLsb' (56 - 8 * j.val) 8) ∧
    (a.toNat = 0x40 → b = s.cmd) ∧
    (a.toNat = 0x41 → b.extractLsb' 4 4 = 0#4 ∧
      (b.extractLsb' 2 2).toNat = (match s.errCode with
        | .none => 0 | .invalidLength => 1 | .invalidCharacter => 2 | .illegalCommand => 3) ∧
      (b.getLsbD 1 = true ↔ s.errCode ≠ .none) ∧ b.getLsbD 0 = s.busy) ∧
    (a.toNat = 0x42 → b = s.errPos) ∧
    (a.toNat = 0x43 → b.extractLsb' 2 6 = 0#6 ∧ b.getLsbD 1 = s.params.strictSym0 ∧
      b.getLsbD 0 = s.params.lowercase) ∧
    (0x44 ≤ a.toNat → b = 0x00#8)

/-- R122: while idle, an HWR to a data register writes its byte and leaves every other byte and all status as it was. -/
def Obligations.HwrWritesOneDataByte : Prop :=
  ∀ (s : State) (a d : Byte), s.busy = false →
    (∀ k : Fin 16, a.toNat = k.val → exec (.hwr a d) s = .next { s with bin := s.bin.set k.val d }) ∧
    (∀ i : Fin 26, a.toNat = 0x10 + i.val → exec (.hwr a d) s = .next { s with txt := s.txt.set i.val d }) ∧
    (a.toNat = 0x2A → exec (.hwr a d) s = .next { s with txtLen := d ++ s.txtLen.extractLsb' 0 8 }) ∧
    (a.toNat = 0x2B → exec (.hwr a d) s = .next { s with txtLen := s.txtLen.extractLsb' 8 8 ++ d }) ∧
    (∀ j : Fin 8, a.toNat = 0x30 + j.val → ∃ v : BitVec 64, exec (.hwr a d) s = .next { s with tsIn := v } ∧
      v.extractLsb' (56 - 8 * j.val) 8 = d ∧
      ∀ i : Fin 8, i ≠ j → v.extractLsb' (56 - 8 * i.val) 8 = s.tsIn.extractLsb' (56 - 8 * i.val) 8)

/-- The frame of an HWR to a data register, seen through the host's reads: the addressed byte reads as written, every
other address as before, but for the TS_OUT byte that views a written BIN[0..5] (R210). -/
def Obligations.HwrFrameThroughReads : Prop :=
  ∀ (s : State) (a d : Byte), s.busy = false → (a.toNat ≤ 0x2B ∨ 0x30 ≤ a.toNat ∧ a.toNat ≤ 0x37) →
    ∃ t : State, exec (.hwr a d) s = .next t ∧ readByte t a = d ∧
      (∀ b : Byte, b ≠ a → (5 < a.toNat ∨ b.toNat ≠ 0x3A + a.toNat) → readByte t b = readByte s b) ∧
      (∀ b : Byte, a.toNat ≤ 5 → b.toNat = 0x3A + a.toNat → readByte t b = d)

/-- R124: an HWR to 0x40 while idle accepts the command, whatever its code; ERRCODE and ERR_POS stay. What ent_buf holds
after it is left open here, as the rule leaves it. -/
def Obligations.HwrToCmdAccepts : Prop :=
  ∀ (s : State) (d : Byte), s.busy = false → ∃ buf : Vector Byte 10,
    exec (.hwr 0x40#8 d) s = .next { s with cmd := d, pendCmd := d, entCnt := 0, entBuf := buf, busy := true }

/-- R123: an HWR to a read-only or reserved address has no effect on any state. -/
def Obligations.HwrReadOnlyOrReservedIgnored : Prop :=
  ∀ (s : State) (a d : Byte),
    (0x38 ≤ a.toNat ∧ a.toNat ≤ 0x3F ∨ a.toNat = 0x41 ∨ a.toNat = 0x42 ∨ a.toNat = 0x43 ∨
      0x2C ≤ a.toNat ∧ a.toNat ≤ 0x2F ∨ 0x44 ≤ a.toNat) →
    exec (.hwr a d) s = .next s

/-- R127: while busy, every HWR is ignored, whatever its address. -/
def Obligations.HwrWhileBusyIgnored : Prop :=
  ∀ (s : State) (a d : Byte), s.busy = true → exec (.hwr a d) s = .next s

/-- WRTS t (R95) writes TS_IN: its eight transactions, taken one after the other while idle, leave TS_IN = t and nothing
else changed. The list of turns is the model's (log entry 1). -/
def Obligations.WrtsWritesTsIn : Prop :=
  ∀ (s : State) (v : BitVec 64) (ts : List Turn), s.rst = false → s.busy = false →
    s.turns = (Pseudo.wrts v).map Turn.host ++ ts →
    Sys2Proof.core.run 8 s = .next { s with tsIn := v, turns := ts }

/-! ### NOP and ILLEGAL -/

/-- R130: NOP commits ERRCODE 0 and ERR_POS 0xFF and changes nothing else. -/
def Obligations.NopClearsError : Prop :=
  decodeCmd 0x00#8 = .nop ∧
  ∀ s : State, s.busy = true → exec .nop s = .next { s with errCode := .none, errPos := 0xFF#8, busy := false }

/-- R131: an illegal code commits ERRCODE 3 and ERR_POS 0xFF and changes nothing else. -/
def Obligations.IllegalCodeCommits : Prop :=
  ∀ (s : State) (c : Byte), 4 ≤ c.toNat → s.busy = true →
    decodeCmd c = .illegal c ∧ exec (.illegal c) s = .next { s with errCode := .illegalCommand, errPos := 0xFF#8, busy := false }

/-- A command's meaning does nothing while the unit is idle: nothing is pending (the model's reading of R126's "enabled
when BUSY = 1", log entry 9). -/
def Obligations.IdleUnitRunsNoCommand : Prop :=
  ∀ (s : State) (c : Byte), s.busy = false →
    exec .nop s = .next s ∧ exec .pack s = .next s ∧ exec .encode s = .next s ∧ exec .decode s = .next s ∧
    exec (.illegal c) s = .next s

/-! ### PACK -/

/-- R140, R142: with ten bytes taken, PACK commits TS_IN[47:0] and the bytes into BIN and changes nothing else; with fewer
and no byte offered it does not commit. -/
def Obligations.PackCommits : Prop :=
  decodeCmd 0x01#8 = .pack ∧
  (∀ s : State, s.busy = true → s.entCnt.val = 10 → ∃ v : Identifier,
    exec .pack s = .next { s with bin := v, errCode := .none, errPos := 0xFF#8, busy := false } ∧
    (∀ k : Fin 6, v[k.val] = s.tsIn.extractLsb' (40 - 8 * k.val) 8) ∧
    (∀ k : Fin 10, v[6 + k.val] = s.entBuf[k.val])) ∧
  (∀ s : State, s.busy = true → s.entPort = [] → s.entCnt.val < 10 → exec .pack s = .next s)

/-- R133 (1): with fewer than ten bytes taken and a byte offered, PACK takes that byte and changes nothing else. -/
def Obligations.PackTakesOfferedByte : Prop :=
  ∀ (s : State) (e : Byte) (rest : List Byte), s.busy = true → s.entPort = e :: rest → s.entCnt.val < 10 →
    ∃ (buf : Vector Byte 10) (n : Fin 11),
      exec .pack s =
        .next { s with entBuf := buf, entCnt := n, entTotal := s.entTotal + 1, entPort := rest } ∧
      n.val = s.entCnt.val + 1 ∧
      ∀ k : Fin 10, buf[k.val] = if k.val = s.entCnt.val then e else s.entBuf[k.val]

/-- R144: on the unit's turn a byte is taken exactly when ent_valid = 1 and ent_ready = 1, it is the offered one, and
ent_ready is 1 only while BUSY = 1, pend_cmd = 0x01 and ent_cnt < 10. -/
def Obligations.ByteTakenWhenValidAndReady : Prop :=
  ∀ s : State, unitMovesNext s → ∃ t : State, step s = .next t ∧
    (entReady s = true → s.busy = true ∧ s.pendCmd = 0x01#8 ∧ s.entCnt.val < 10) ∧
    (entReady s = true ∧ entValid s = true →
      ∃ e, entData s = some e ∧ s.entPort = e :: t.entPort ∧ t.entCnt.val = s.entCnt.val + 1 ∧
        ∀ k : Fin 10, k.val = s.entCnt.val → t.entBuf[k.val] = e) ∧
    (¬(entReady s = true ∧ entValid s = true) → t.entPort = s.entPort ∧ t.entTotal = s.entTotal)

/-- R145 (the spec's inference from R142 and R210): after a committed PACK, TS_OUT is TS_IN mod 2^48. -/
def Obligations.TsOutAfterPack : Prop :=
  ∀ s : State, s.busy = true → s.entCnt.val = 10 → ∃ t : State, exec .pack s = .next t ∧
    (tsOut t.bin).toNat = s.tsIn.toNat % 2 ^ 48

/-- R146 (the spec's inference from R142 and R140): a smaller 48-bit timestamp packs to a smaller value, whatever the
entropy. -/
def Obligations.PackKeepsTimestampOrder : Prop :=
  ∀ s₁ s₂ : State, s₁.busy = true → s₂.busy = true → s₁.entCnt.val = 10 → s₂.entCnt.val = 10 →
    s₁.tsIn.toNat % 2 ^ 48 < s₂.tsIn.toNat % 2 ^ 48 →
    ∃ t₁ t₂ : State, exec .pack s₁ = .next t₁ ∧ exec .pack s₂ = .next t₂ ∧ bytesLt t₁.bin t₂.bin

/-- R141, whole command: from an accepted PACK whose source offers ten bytes, eleven unit turns take exactly those ten
bytes, put them in order into BIN[6..15] and commit. -/
def Obligations.PackConsumesTenBytes : Prop :=
  ∀ (s : State) (es : Vector Byte 10) (rest : List Byte),
    s.rst = false → s.busy = true → s.pendCmd = 0x01#8 → s.entCnt = 0 → s.turns = [] →
    s.entPort = es.toList ++ rest →
    ∃ v : Identifier,
      Sys2Proof.core.run 11 s = .next { s with
        bin := v, errCode := .none, errPos := 0xFF#8, busy := false,
        entCnt := 10, entBuf := es, entTotal := s.entTotal + 10, entPort := rest } ∧
      (∀ k : Fin 6, v[k.val] = s.tsIn.extractLsb' (40 - 8 * k.val) 8) ∧
      (∀ k : Fin 10, v[6 + k.val] = es[k.val])

/-- R125, R127, R141 under every interleaving: whatever the host does in between, each step of a pending PACK keeps its
operands and takes the source's bytes in order, or is its commit, which has consumed exactly ten. -/
def Obligations.PackUnderEveryInterleaving : Prop :=
  ∀ s t u : State, PackProgress s t → noResetNext t → step t = .next u →
    PackProgress s u ∨
    (u.busy = false ∧ u.errCode = .none ∧ u.errPos = 0xFF#8 ∧ u.txt = s.txt ∧ u.txtLen = s.txtLen ∧ u.tsIn = s.tsIn ∧
      u.cmd = s.cmd ∧ u.entTotal = s.entTotal + 10 ∧ u.entPort = s.entPort.drop 10 ∧
      (∀ k : Fin 6, u.bin[k.val] = s.tsIn.extractLsb' (40 - 8 * k.val) 8) ∧
      (∀ k : Fin 10, s.entPort[k.val]? = some u.bin[6 + k.val]))

/-! ### ENCODE -/

/-- R160: ENCODE commits the 26 characters of BIN and TXT_LEN = 26 and changes nothing else; symbol i is
(V >> 5(25-i)) & 0x1F (R86). -/
def Obligations.EncodeCommits : Prop :=
  decodeCmd 0x02#8 = .encode ∧
  ∀ s : State, s.busy = true → ∃ x : Text,
    exec .encode s = .next { s with
      txt := x, txtLen := 0x001A#16, errCode := .none, errPos := 0xFF#8, busy := false } ∧
    ∀ i : Fin 26, x[i.val] = encRom ((numeric s.bin >>> (5 * (25 - i.val))).setWidth 5)

/-- R86: the bits each symbol takes, row by row of the rule's table. -/
def Obligations.SymbolBitsOfBytes : Prop :=
  ∀ b : Identifier,
    (∀ i : Fin 26, symbolOf b i = ((numeric b).setWidth 130).extractLsb' (125 - 5 * i.val) 5) ∧
    (∀ i : Fin 26, symbolOf b i = (numeric b >>> (5 * (25 - i.val))).setWidth 5) ∧
    symbolOf b 0 = 0#2 ++ b[0].extractLsb' 5 3 ∧
    symbolOf b 1 = b[0].extractLsb' 0 5 ∧
    symbolOf b 2 = b[1].extractLsb' 3 5 ∧
    symbolOf b 3 = b[1].extractLsb' 0 3 ++ b[2].extractLsb' 6 2 ∧
    symbolOf b 4 = b[2].extractLsb' 1 5 ∧
    symbolOf b 5 = b[2].extractLsb' 0 1 ++ b[3].extractLsb' 4 4 ∧
    symbolOf b 6 = b[3].extractLsb' 0 4 ++ b[4].extractLsb' 7 1 ∧
    symbolOf b 7 = b[4].extractLsb' 2 5 ∧
    symbolOf b 8 = b[4].extractLsb' 0 2 ++ b[5].extractLsb' 5 3 ∧
    symbolOf b 9 = b[5].extractLsb' 0 5 ∧
    symbolOf b 10 = b[6].extractLsb' 3 5 ∧
    symbolOf b 11 = b[6].extractLsb' 0 3 ++ b[7].extractLsb' 6 2 ∧
    symbolOf b 12 = b[7].extractLsb' 1 5 ∧
    symbolOf b 13 = b[7].extractLsb' 0 1 ++ b[8].extractLsb' 4 4 ∧
    symbolOf b 14 = b[8].extractLsb' 0 4 ++ b[9].extractLsb' 7 1 ∧
    symbolOf b 15 = b[9].extractLsb' 2 5 ∧
    symbolOf b 16 = b[9].extractLsb' 0 2 ++ b[10].extractLsb' 5 3 ∧
    symbolOf b 17 = b[10].extractLsb' 0 5 ∧
    symbolOf b 18 = b[11].extractLsb' 3 5 ∧
    symbolOf b 19 = b[11].extractLsb' 0 3 ++ b[12].extractLsb' 6 2 ∧
    symbolOf b 20 = b[12].extractLsb' 1 5 ∧
    symbolOf b 21 = b[12].extractLsb' 0 1 ++ b[13].extractLsb' 4 4 ∧
    symbolOf b 22 = b[13].extractLsb' 0 4 ++ b[14].extractLsb' 7 1 ∧
    symbolOf b 23 = b[14].extractLsb' 2 5 ∧
    symbolOf b 24 = b[14].extractLsb' 0 2 ++ b[15].extractLsb' 5 3 ∧
    symbolOf b 25 = b[15].extractLsb' 0 5

/-- R162: TXT[0] after an ENCODE is EncROM[{0b00, BIN[0][7:5]}], one of `0`–`7`. -/
def Obligations.FirstCharacterIsOctal : Prop :=
  ∀ s : State, s.busy = true → ∃ t : State, exec .encode s = .next t ∧
    t.txt[0] = encRom (0#2 ++ s.bin[0].extractLsb' 5 3) ∧
    0x30 ≤ t.txt[0].toNat ∧ t.txt[0].toNat ≤ 0x37

/-- R163 (the spec's inference from R86 and R92): ENCODE keeps the order of identifier values. -/
def Obligations.EncodeKeepsOrder : Prop :=
  ∀ s₁ s₂ : State, s₁.busy = true → s₂.busy = true → bytesLt s₁.bin s₂.bin →
    ∃ t₁ t₂ : State, exec .encode s₁ = .next t₁ ∧ exec .encode s₂ = .next t₂ ∧ bytesLt t₁.txt t₂.txt

/-- R22 (the spec's inference from R20): the byte-wise order is the order of the numeric readings. -/
def Obligations.OrderIsNumericOrder : Prop :=
  ∀ a b : Identifier, bytesLt a b ↔ (numeric a).toNat < (numeric b).toNat

/-! ### DECODE -/

/-- R181: a TXT_LEN other than 26 is INVALID_LENGTH, whatever TXT holds, and nothing else changes. -/
def Obligations.DecodeChecksLength : Prop :=
  ∀ s : State, s.busy = true → s.txtLen.toNat ≠ 26 →
    exec .decode s = .next { s with errCode := .invalidLength, errPos := 0xFF#8, busy := false }

/-- R182: with TXT_LEN = 26 and a bad character, DECODE is INVALID_CHARACTER at the lowest bad index, and nothing else
changes. -/
def Obligations.DecodeReportsLowestBadIndex : Prop :=
  ∀ (s : State) (i : Fin 26), s.busy = true → s.txtLen.toNat = 26 →
    ¬goodAt s.params s.txt i → (∀ j : Fin 26, j < i → goodAt s.params s.txt j) →
    ∃ pos : Byte, pos.toNat = i.val ∧
      exec .decode s = .next { s with errCode := .invalidCharacter, errPos := pos, busy := false }

/-- R87, R180: with 26 good characters DECODE commits the value assembled from their symbols, row by row of R87's table,
and changes nothing else. -/
def Obligations.DecodeAssemblesValue : Prop :=
  ∀ s : State, s.busy = true → s.txtLen.toNat = 26 → (∀ i : Fin 26, goodAt s.params s.txt i) →
    ∃ (v : Identifier) (y : Fin 26 → Symbol),
      exec .decode s = .next { s with bin := v, errCode := .none, errPos := 0xFF#8, busy := false } ∧
      (∀ i : Fin 26, (y i).setWidth 8 = decRom s.params.lowercase s.txt[i.val]) ∧
      v[0] = (y 0).extractLsb' 0 3 ++ y 1 ∧
      v[1] = y 2 ++ (y 3).extractLsb' 2 3 ∧
      v[2] = ((y 3).extractLsb' 0 2 ++ y 4) ++ (y 5).extractLsb' 4 1 ∧
      v[3] = (y 5).extractLsb' 0 4 ++ (y 6).extractLsb' 1 4 ∧
      v[4] = ((y 6).extractLsb' 0 1 ++ y 7) ++ (y 8).extractLsb' 3 2 ∧
      v[5] = (y 8).extractLsb' 0 3 ++ y 9 ∧
      v[6] = y 10 ++ (y 11).extractLsb' 2 3 ∧
      v[7] = ((y 11).extractLsb' 0 2 ++ y 12) ++ (y 13).extractLsb' 4 1 ∧
      v[8] = (y 13).extractLsb' 0 4 ++ (y 14).extractLsb' 1 4 ∧
      v[9] = ((y 14).extractLsb' 0 1 ++ y 15) ++ (y 16).extractLsb' 3 2 ∧
      v[10] = (y 16).extractLsb' 0 3 ++ y 17 ∧
      v[11] = y 18 ++ (y 19).extractLsb' 2 3 ∧
      v[12] = ((y 19).extractLsb' 0 2 ++ y 20) ++ (y 21).extractLsb' 4 1 ∧
      v[13] = (y 21).extractLsb' 0 4 ++ (y 22).extractLsb' 1 4 ∧
      v[14] = ((y 22).extractLsb' 0 1 ++ y 23) ++ (y 24).extractLsb' 3 2 ∧
      v[15] = (y 24).extractLsb' 0 3 ++ y 25

/-- R183: with P_STRICT_SYM0 = 0 the two high bits of symbol 0 are dropped and DECODE succeeds; with P_STRICT_SYM0 = 1 a
symbol 0 of 8..31 is INVALID_CHARACTER at position 0, as a sentinel there is. -/
def Obligations.SymbolZeroOverflow : Prop :=
  ∀ s : State, s.busy = true → s.txtLen.toNat = 26 →
    (s.params.strictSym0 = false → (∀ i : Fin 26, decRom s.params.lowercase s.txt[i.val] ≠ 0xFF#8) → ∃ v : Identifier,
      exec .decode s = .next { s with bin := v, errCode := .none, errPos := 0xFF#8, busy := false } ∧
      v[0].extractLsb' 5 3 = (decRom s.params.lowercase s.txt[0]).extractLsb' 0 3) ∧
    ((s.params.strictSym0 = true ∧ 8 ≤ (decRom s.params.lowercase s.txt[0]).toNat ∨
        decRom s.params.lowercase s.txt[0] = 0xFF#8) →
      exec .decode s = .next { s with errCode := .invalidCharacter, errPos := 0x00#8, busy := false })

/-- R184: when DECODE raises an error BIN keeps its value; TXT, TXT_LEN and TS_IN are never written. -/
def Obligations.DecodeHasNoPartialSuccess : Prop :=
  ∀ s : State, s.busy = true → ∃ t : State, exec .decode s = .next t ∧ t.busy = false ∧
    (t.errCode ≠ .none → t.bin = s.bin) ∧
    (t.errCode = .none → t.bin = valueOf s.params s.txt) ∧
    t.txt = s.txt ∧ t.txtLen = s.txtLen ∧ t.tsIn = s.tsIn

/-- R188 (the spec's inference from R180): the outcome of DECODE is a function of TXT_LEN, TXT and the parameters. -/
def Obligations.DecodeDependsOnTextOnly : Prop :=
  ∀ s₁ s₂ : State, s₁.busy = true → s₂.busy = true → s₁.txtLen = s₂.txtLen → s₁.txt = s₂.txt → s₁.params = s₂.params →
    ∃ t₁ t₂ : State, exec .decode s₁ = .next t₁ ∧ exec .decode s₂ = .next t₂ ∧
      t₁.errCode = t₂.errCode ∧ t₁.errPos = t₂.errPos ∧ (t₁.errCode = .none → t₁.bin = t₂.bin)

/-- R186 (the spec's inference from R86, R87, R91 and R162): ENCODE and then DECODE, with no host write to TXT_LEN in
between, leave BIN as it was and no error, for every build. The turns are the unit's commit, the host's HWR 0x40, 0x03
and the unit's commit. -/
def Obligations.EncodeThenDecodeKeepsBin : Prop :=
  ∀ (s : State) (ts : List Turn), s.rst = false → s.busy = true → s.pendCmd = 0x02#8 →
    s.turns = .unit :: .host 0x14003#17 :: .unit :: ts →
    ∃ t : State, Sys2Proof.core.run 3 s = .next t ∧ t.bin = s.bin ∧ t.errCode = .none ∧ t.errPos = 0xFF#8 ∧
      t.busy = false ∧ t.turns = ts

/-- R187 (the spec's inference from R180, R183 and R89): DECODE of a text it accepts and then ENCODE give the text back
exactly when symbol 0 is at most 7 and no letter is lowercase; otherwise symbol 0 comes back masked to 3 bits and every
letter in upper case. -/
def Obligations.DecodeThenEncodeNormalisesText : Prop :=
  ∀ (s : State) (ts : List Turn), s.rst = false → s.busy = true → s.pendCmd = 0x03#8 → s.txtLen.toNat = 26 →
    (∀ i : Fin 26, goodAt s.params s.txt i) →
    s.turns = .unit :: .host 0x14002#17 :: .unit :: ts →
    ∃ t : State, Sys2Proof.core.run 3 s = .next t ∧
      (t.txt = s.txt ↔ (decRom s.params.lowercase s.txt[0]).toNat ≤ 7 ∧ ∀ i : Fin 26, s.txt[i.val].toNat < 0x61) ∧
      t.txt[0] = encRom (0#2 ++ (decRom s.params.lowercase s.txt[0]).extractLsb' 0 3) ∧
      (∀ i : Fin 26, i ≠ 0 →
        t.txt[i.val] = if s.txt[i.val].toNat < 0x61 then s.txt[i.val] else s.txt[i.val] - 0x20#8)

/-! ### TS_OUT -/

/-- R210: the TS_OUT view, as a number and as the bytes that HRDs of 0x38–0x3F return. -/
def Obligations.TsOutViewsBin : Prop :=
  ∀ s : State,
    tsOut s.bin = 0x0000#16 ++ (((((s.bin[0] ++ s.bin[1]) ++ s.bin[2]) ++ s.bin[3]) ++ s.bin[4]) ++ s.bin[5]) ∧
    (∀ (a : Byte) (j : Fin 8), a.toNat = 0x38 + j.val →
      exec (.hrd a) s = .next { s with rdLog := s.rdLog ++ [(tsOut s.bin).extractLsb' (56 - 8 * j.val) 8] }) ∧
    (∀ a : Byte, 0x38 ≤ a.toNat → a.toNat ≤ 0x39 →
      exec (.hrd a) s = .next { s with rdLog := s.rdLog ++ [0x00#8] }) ∧
    (∀ (a : Byte) (k : Fin 6), a.toNat = 0x3A + k.val →
      exec (.hrd a) s = .next { s with rdLog := s.rdLog ++ [s.bin[k.val]] })

/-- R212 (the spec's inference from R87): after a successful DECODE, TS_OUT is the number in the first ten symbols, after
dropping the two high bits of symbol 0. -/
def Obligations.TsOutAfterDecode : Prop :=
  ∀ s : State, s.busy = true → s.txtLen.toNat = 26 → (∀ i : Fin 26, goodAt s.params s.txt i) →
    ∃ t : State, exec .decode s = .next t ∧
      (tsOut t.bin).toNat =
        (joinBE (fun i : Fin 10 => (decRom s.params.lowercase s.txt[i.val]).extractLsb' 0 5)).toNat % 2 ^ 48

/-! ### Errors -/

/-- R221: a command that ends with an error writes ERRCODE and ERR_POS and clears BUSY, and changes nothing else; the next
HWR to CMD is accepted as usual. -/
def Obligations.ErrorChangesStatusOnly : Prop :=
  ∀ (s t : State) (c : Byte), s.busy = true → exec (decodeCmd c) s = .next t → t.busy = false → t.errCode ≠ .none →
    t = { s with errCode := t.errCode, errPos := t.errPos, busy := false } ∧
    ∀ d : Byte, ∃ u : State, exec (.hwr 0x40#8 d) t = .next u ∧ u.busy = true ∧ u.pendCmd = d

/-- R222: NOP, PACK and ENCODE never end with an error, DECODE ends only with its own two, an illegal code only with
ILLEGAL_COMMAND, and a read of the TS_OUT view never fails. -/
def Obligations.WhichCommandsFail : Prop :=
  (∀ (s t : State) (c : Byte), s.busy = true → exec (decodeCmd c) s = .next t → t.busy = false →
    (c.toNat ≤ 2 → t.errCode = .none) ∧
    (c.toNat = 3 → t.errCode ≠ .illegalCommand) ∧
    (4 ≤ c.toNat → t.errCode = .illegalCommand)) ∧
  (∀ (s : State) (a : Byte), 0x38 ≤ a.toNat → a.toNat ≤ 0x3F →
    ∃ t : State, exec (.hrd a) s = .next t ∧ t.errCode = s.errCode ∧ t.errPos = s.errPos)

/-- R223: a commit overwrites ERRCODE and ERR_POS whatever they held, so a command that ends without an error clears an
earlier one; reading STATUS does not. -/
def Obligations.ErrorsAreNotSticky : Prop :=
  (∀ (s t : State) (c : Byte) (e : ErrCode) (p : Byte), s.busy = true → exec (decodeCmd c) s = .next t → t.busy = false →
    exec (decodeCmd c) { s with errCode := e, errPos := p } = .next t) ∧
  (∀ s : State, ∃ t : State, exec (.hrd 0x41#8) s = .next t ∧ t.errCode = s.errCode ∧ t.errPos = s.errPos)

/-! ### The step -/

/-- A host turn runs the instruction its bus word decodes to, on the state with that turn taken off (log entry 1). -/
def Obligations.StepRunsHostTransaction : Prop :=
  ∀ (s : State) (w : BusWord) (ts : List Turn) (i : Instr), s.rst = false → s.turns = .host w :: ts → decodeBus w = i →
    step s = exec i { s with turns := ts }

/-- A unit turn runs the pending command's instruction, on the state with that turn taken off; while nothing is pending it
changes nothing else (log entries 1 and 9). -/
def Obligations.StepRunsPendingCommand : Prop :=
  (∀ (s : State) (i : Instr), s.rst = false → s.busy = true → decodeCmd s.pendCmd = i →
    (s.turns = [] → step s = exec i s) ∧
    (∀ ts, s.turns = .unit :: ts → step s = exec i { s with turns := ts })) ∧
  (∀ s : State, s.busy = false →
    (s.turns = [] → step s = .next s) ∧
    (∀ ts, s.turns = .unit :: ts → step s = .next { s with turns := ts }))

/-- An instruction placed by withFetchWord is the one the next step runs: a bus word on the given state with rst at 0, a
command byte on that state just after the byte was accepted, with the unit busy with it. What ent_buf holds then is left
open. How an instruction is placed is the model's choice (log entries 9 and 12). -/
def Obligations.StepRunsPlacedWord : Prop :=
  ∀ (s : State) (nbits w : Nat) (i : Instr), decodeTableWord nbits w = some i →
    (8 < nbits → step (s.withFetchWord nbits w) = exec i { s with rst := false }) ∧
    (nbits ≤ 8 → ∃ (c : Byte) (buf : Vector Byte 10), c.toNat = w ∧
      step (s.withFetchWord nbits w) =
        exec i { s with rst := false, cmd := c, pendCmd := c, entCnt := 0, entBuf := buf, busy := true })

/-- R234: no instruction and no step faults or refuses; a PACK whose source delivers fewer than its ten bytes stays busy
at every step, whatever the host does, and for ever. That the finite list `entPort` is all the source ever offers, and that
an empty list of turns leaves every step to the unit, are the model's (log entries 3 and 1). -/
def Obligations.NothingStopsButAHang : Prop :=
  (∀ (i : Instr) (s : State), ∃ t : State, exec i s = .next t) ∧
  (∀ s : State, ∃ t : State, step s = .next t) ∧
  (∀ s t : State, s.rst = false → s.busy = true → s.pendCmd = 0x01#8 → s.entCnt.val + s.entPort.length < 10 →
    noResetNext s → step s = .next t →
    t.rst = false ∧ t.busy = true ∧ t.pendCmd = 0x01#8 ∧ t.entCnt.val + t.entPort.length < 10) ∧
  (∀ (s : State) (n : Nat), s.rst = false → s.busy = true → s.pendCmd = 0x01#8 → s.entCnt.val < 10 → s.entPort = [] →
    s.turns = [] → Sys2Proof.core.run n s = .next s)

/-- R126, R129: on the unit's turn an enabled commit is taken, and BUSY clears in that one step. -/
def Obligations.EnabledCommitIsTaken : Prop :=
  ∀ s : State, unitMovesNext s → commitEnabled s = true → ∃ t : State, step s = .next t ∧ t.busy = false

/-- R128 (the spec's inference from R120 and R126): a step that leaves the command pending leaves every register as it
was before the command. -/
def Obligations.NoResultBeforeCommit : Prop :=
  ∀ s t : State, s.busy = true → noResetNext s → step s = .next t → t.busy = true →
    t.bin = s.bin ∧ t.txt = s.txt ∧ t.txtLen = s.txtLen ∧ t.tsIn = s.tsIn ∧ t.cmd = s.cmd ∧ t.errCode = s.errCode ∧
    t.errPos = s.errPos

/-- R23: BIN is written only by an HWR to 0x00–0x0F, the commit of a PACK, the commit of a successful DECODE, and reset. -/
def Obligations.FourEventsWriteBin : Prop :=
  ∀ s t : State, step s = .next t → t.bin ≠ s.bin →
    (∃ (a d : Byte) (ts : List Turn), s.turns = .host (busWord true a d) :: ts ∧ s.busy = false ∧ a.toNat ≤ 0x0F) ∨
    (unitMovesNext s ∧ s.busy = true ∧ s.pendCmd = 0x01#8 ∧ s.entCnt.val = 10 ∧ t.busy = false) ∨
    (unitMovesNext s ∧ s.busy = true ∧ s.pendCmd = 0x03#8 ∧ t.busy = false ∧ t.errCode = .none) ∨
    (∃ ts, s.turns = .rst true :: ts)

/-- R30: ERRCODE changes only at a commit or at reset; BUSY changes only when a command is accepted, when it commits, or
at reset. -/
def Obligations.StatusChangesOnlyByLifecycle : Prop :=
  ∀ s t : State, step s = .next t →
    (t.errCode ≠ s.errCode → (unitMovesNext s ∧ commitEnabled s = true) ∨ ∃ ts, s.turns = .rst true :: ts) ∧
    (s.busy = true → t.busy = false → (unitMovesNext s ∧ commitEnabled s = true) ∨ ∃ ts, s.turns = .rst true :: ts) ∧
    (s.busy = false → t.busy = true → ∃ (d : Byte) (ts : List Turn), s.turns = .host (busWord true 0x40#8 d) :: ts)

/-- R141: no other command and no idle period takes a byte. ent_total grows, by one, only in an entropy step of a pending
PACK, and falls only at reset. -/
def Obligations.OnlyPackTakesEntropy : Prop :=
  ∀ s t : State, step s = .next t → (t.entPort ≠ s.entPort ∨ t.entTotal ≠ s.entTotal) → noResetNext s →
    s.busy = true ∧ s.pendCmd = 0x01#8 ∧ s.entCnt.val < 10 ∧ t.entTotal = s.entTotal + 1 ∧ t.busy = true ∧
    ∃ e, s.entPort = e :: t.entPort

/-- R68 (the spec's inference): while idle only the host's own HWRs change any register; every other step but a reset
changes at most the list of turns and the bytes the host has read. -/
def Obligations.IdleRegistersChangeOnlyByHwr : Prop :=
  ∀ s t : State, s.busy = false → noResetNext s → (∀ (a d : Byte) (ts : List Turn), s.turns ≠ .host (busWord true a d) :: ts) →
    step s = .next t → { s with turns := t.turns, rdLog := t.rdLog } = t

/-- R33: CAPS is {000000, P_STRICT_SYM0, P_LOWERCASE}; an HWR to it is ignored; its value never changes, and reset does
not change it either. -/
def Obligations.CapsNeverChanges : Prop :=
  (∀ s : State, readByte s 0x43#8 = (0#6 ++ BitVec.ofBool s.params.strictSym0) ++ BitVec.ofBool s.params.lowercase) ∧
  (∀ (s : State) (d : Byte), exec (.hwr 0x43#8 d) s = .next s) ∧
  (∀ s t : State, step s = .next t → t.params = s.params ∧ readByte t 0x43#8 = readByte s 0x43#8)

/-- R124: what ent_buf holds at and above ent_cnt is never read before it is written: two states that differ only there
step to states that differ only there. -/
def Obligations.UnreadEntropyNeverMatters : Prop :=
  ∀ s t s' : State, sameButUnreadEntropy s t → step s = .next s' →
    ∃ t' : State, step t = .next t' ∧ sameButUnreadEntropy s' t'

/-! ### Reset -/

/-- R240, with R241 and R243: the state after reset, for the reset state and for the step in which rst goes to 1, whatever
came before. That this is the single step of a turn of its own, and that the source's bytes stand in `entPort` and stay
there, are the model's (log entries 1, 6 and 3). -/
def Obligations.ResetSetsEveryRegister : Prop :=
  let isReset (t : State) : Prop :=
    (∀ k : Fin 16, t.bin[k.val] = 0x00#8) ∧ (∀ i : Fin 26, t.txt[i.val] = 0x00#8) ∧ t.txtLen = 0x0000#16 ∧
    t.tsIn = 0#64 ∧ t.cmd = 0x00#8 ∧ t.busy = false ∧ t.errCode = .none ∧ t.errPos = 0xFF#8 ∧ t.pendCmd = 0x00#8 ∧
    t.entCnt = 0 ∧ (∀ k : Fin 10, t.entBuf[k.val] = 0x00#8) ∧ t.entTotal = 0 ∧
    readByte t 0x41#8 = 0x00#8 ∧ tsOut t.bin = 0#64 ∧
    readByte t 0x43#8 = (0#6 ++ BitVec.ofBool t.params.strictSym0) ++ BitVec.ofBool t.params.lowercase
  isReset State.reset ∧
  ∀ (s : State) (ts : List Turn), s.turns = .rst true :: ts →
    ∃ t : State, step s = .next t ∧ isReset t ∧ t.params = s.params ∧ t.entPort = s.entPort

/-- R241: while rst = 1 every transaction is ignored, an HRD returns 0x00, ent_ready is 0 and nothing commits; rst going
to 0 changes nothing else. The turns and the level of rst as a field are the model's (log entries 1 and 6). -/
def Obligations.RstHoldsTheBlock : Prop :=
  ∀ s : State, s.rst = true →
    entReady s = false ∧ commitEnabled s = false ∧
    (s.turns = [] → step s = .next s) ∧
    (∀ ts, s.turns = .unit :: ts → step s = .next { s with turns := ts }) ∧
    (∀ (a d : Byte) (ts : List Turn), s.turns = .host (busWord true a d) :: ts →
      step s = .next { s with turns := ts }) ∧
    (∀ (a d : Byte) (ts : List Turn), s.turns = .host (busWord false a d) :: ts →
      step s = .next { s with turns := ts, rdLog := s.rdLog ++ [0x00#8] }) ∧
    (∀ ts, s.turns = .rst false :: ts → step s = .next { s with turns := ts, rst := false })

/-- R242 (the spec's inference from R240 and R160): the first HWR to CMD after reset is accepted, and ENCODE run at once
gives 26 times the character 0. -/
def Obligations.EncodeAfterResetGivesZeros : Prop :=
  ∃ t : State,
    Sys2Proof.core.run 2 { State.reset with turns := [.host 0x14002#17, .unit] } = .next t ∧
    (∀ i : Fin 26, t.txt[i.val] = 0x30#8) ∧ t.txtLen.toNat = 26 ∧ t.busy = false ∧ t.errCode = .none

/-! ### The invariant -/

/-- The invariant holds at reset. -/
def Obligations.ResetMeetsInvariant : Prop := Inv State.reset

/-- Every step keeps the invariant, from every state that meets it. -/
def Obligations.StepKeepsInvariant : Prop := ∀ s t : State, Inv s → step s = .next t → Inv t
end

