-- ==== Sys2Proof/Laws/Bits.lean ====
section
/-! SUPPORT. `joinBE` and `digitBE` undo each other, and `joinBE` keeps the order of the digits. -/

namespace Sys2Proof.Machine

theorem joinBE_zero {w : Nat} (f : Fin 0 → BitVec w) : joinBE f = 0#0 := rfl

theorem joinBE_succ {w n : Nat} (f : Fin (n + 1) → BitVec w) :
    joinBE f = joinBE (fun k : Fin n => f k.castSucc) ++ f (Fin.last n) := rfl

/-- The number read from the digits, one digit at a time. -/
theorem toNat_joinBE_succ {w n : Nat} (f : Fin (n + 1) → BitVec w) :
    (joinBE f).toNat = (joinBE (fun k : Fin n => f k.castSucc)).toNat * 2 ^ w + (f (Fin.last n)).toNat := by
  refine (BitVec.toNat_append (joinBE fun k : Fin n => f k.castSucc) (f (Fin.last n))).trans ?_
  rw [← Nat.shiftLeft_add_eq_or_of_lt (f (Fin.last n)).isLt, Nat.shiftLeft_eq]

/-- Dropping the last digit of `n + 1` leaves a value of `n` digits. -/
theorem toNat_div_lt {w n : Nat} (v : BitVec (w * (n + 1))) : v.toNat / 2 ^ w < 2 ^ (w * n) :=
  Nat.div_lt_of_lt_mul (lt_of_lt_of_eq v.isLt (by rw [Nat.mul_succ, pow_add, Nat.mul_comm]))

/-- Digit `k` of the joined digits is the `k`-th of them. -/
@[simp] theorem digitBE_joinBE {w n : Nat} (f : Fin n → BitVec w) (k : Fin n) : digitBE w n (joinBE f) k = f k := by
  induction n with
  | zero => exact k.elim0
  | succ n ih =>
    apply BitVec.eq_of_toNat_eq
    simp only [digitBE, BitVec.extractLsb'_toNat, toNat_joinBE_succ, Nat.shiftRight_eq_div_pow]
    have hl := (f (Fin.last n)).isLt
    refine Fin.lastCases ?_ (fun j => ?_) k
    · simp [Nat.mul_comm _ (2 ^ w), Nat.mod_eq_of_lt hl]
    · have hj := congrArg BitVec.toNat (ih (fun k => f k.castSucc) j)
      simp only [digitBE, BitVec.extractLsb'_toNat, Nat.shiftRight_eq_div_pow] at hj
      have e : w * (n + 1 - 1 - j.castSucc.val) = w + w * (n - 1 - j.val) := by
        have := j.isLt
        rw [Fin.val_castSucc, show n + 1 - 1 - j.val = (n - 1 - j.val) + 1 by omega, Nat.mul_add, Nat.mul_one, Nat.add_comm]
      rw [e, pow_add, ← Nat.div_div_eq_div_mul, Nat.add_div_of_dvd_right (Dvd.intro_left _ rfl),
        Nat.mul_div_cancel _ (Nat.two_pow_pos w), Nat.div_eq_of_lt hl, Nat.add_zero, hj]

/-- Two joined values are equal only if every digit is. -/
theorem joinBE_injective {w n : Nat} {f g : Fin n → BitVec w} (h : joinBE f = joinBE g) : f = g := by
  funext k
  rw [← digitBE_joinBE f k, h, digitBE_joinBE]

/-- Joining the digits of a value gives the value back. -/
@[simp] theorem joinBE_digitBE {w n : Nat} (v : BitVec (w * n)) : joinBE (digitBE w n v) = v := by
  induction n with
  | zero => apply BitVec.eq_of_toNat_eq; have := v.isLt; simp only [Nat.mul_zero, pow_zero] at this; simp [joinBE_zero]; omega
  | succ n ih =>
    apply BitVec.eq_of_toNat_eq
    rw [toNat_joinBE_succ]
    have hd : (fun k : Fin n => digitBE w (n + 1) v k.castSucc) = digitBE w n (v.extractLsb' w (w * n)) := by
      funext k
      apply BitVec.eq_of_toNat_eq
      have := k.isLt
      have hk : w * (n + 1 - 1 - k.val) = w + w * (n - 1 - k.val) := by
        rw [show n + 1 - 1 - k.val = (n - 1 - k.val) + 1 by omega, Nat.mul_add, Nat.mul_one, Nat.add_comm]
      simp only [digitBE, BitVec.extractLsb'_toNat, Nat.shiftRight_eq_div_pow, Fin.val_castSucc]
      rw [Nat.mod_eq_of_lt (toNat_div_lt v), hk, pow_add, Nat.div_div_eq_div_mul]
    rw [hd, ih]
    simp only [digitBE, BitVec.extractLsb'_toNat, Nat.shiftRight_eq_div_pow, Fin.val_last, Nat.add_sub_cancel, Nat.sub_self,
      Nat.mul_zero, pow_zero, Nat.div_one]
    rw [Nat.mod_eq_of_lt (toNat_div_lt v), Nat.mul_comm]
    exact Nat.div_add_mod _ _

/-- Big-endian joining keeps the order: the first digit that differs decides. -/
theorem joinBE_lt {w n : Nat} {f g : Fin n → BitVec w} (k : Fin n) (he : ∀ j, j < k → f j = g j)
    (hlt : (f k).toNat < (g k).toNat) : (joinBE f).toNat < (joinBE g).toNat := by
  induction n with
  | zero => exact k.elim0
  | succ n ih =>
    rw [toNat_joinBE_succ, toNat_joinBE_succ]
    have hf := (f (Fin.last n)).isLt
    revert he hlt
    refine Fin.lastCases ?_ (fun k => ?_) k
    · intro he hlt
      rw [show (fun k : Fin n => f k.castSucc) = (fun k : Fin n => g k.castSucc) from
        funext fun j => he _ (Fin.castSucc_lt_last j)]
      omega
    · intro he hlt
      have := ih k (fun j hj => he _ (Fin.castSucc_lt_castSucc_iff.mpr hj)) hlt
      calc _ < (joinBE fun k : Fin n => f k.castSucc).toNat * 2 ^ w + 2 ^ w := by omega
        _ = ((joinBE fun k : Fin n => f k.castSucc).toNat + 1) * 2 ^ w := by ring
        _ ≤ (joinBE fun k : Fin n => g k.castSucc).toNat * 2 ^ w := Nat.mul_le_mul_right _ this
        _ ≤ _ := Nat.le_add_right _ _

/-- If two joined values are in order, the first digit that differs is. -/
theorem exists_digit_lt_of_joinBE_lt {w n : Nat} {f g : Fin n → BitVec w} (h : (joinBE f).toNat < (joinBE g).toNat) :
    ∃ k, (∀ j, j < k → f j = g j) ∧ (f k).toNat < (g k).toNat := by
  have hne : ∃ k, f k ≠ g k := by
    by_contra hc
    simp only [not_exists, ne_eq, not_not] at hc
    rw [show f = g from funext hc] at h
    exact lt_irrefl _ h
  let P : Fin n → Prop := fun k => f k ≠ g k
  obtain ⟨k, hk, hmin⟩ : ∃ k, P k ∧ ∀ j, j < k → ¬ P j := by
    classical
    obtain ⟨k, hk⟩ := hne
    have hs : (Finset.univ.filter P).Nonempty := ⟨k, by simp [P, hk]⟩
    refine ⟨(Finset.univ.filter P).min' hs, (Finset.mem_filter.mp (Finset.min'_mem _ hs)).2, fun j hj hP => ?_⟩
    exact absurd (Finset.min'_le _ j (by simp [hP])) (not_le.mpr hj)
  refine ⟨k, fun j hj => by simpa [P] using hmin j hj, ?_⟩
  rcases Nat.lt_trichotomy (f k).toNat (g k).toNat with h1 | h1 | h1
  · exact h1
  · exact absurd (BitVec.eq_of_toNat_eq h1) hk
  · exact absurd (joinBE_lt k (fun j hj => by simpa [P, eq_comm] using hmin j hj) h1) (by omega)

/-- The replaced digit reads as written. -/
@[simp] theorem digitBE_setDigitBE_same {w n : Nat} (v : BitVec (w * n)) (k : Fin n) (d : BitVec w) :
    digitBE w n (setDigitBE w n v k d) k = d := by
  simp [setDigitBE]

/-- Every other digit reads as before. -/
theorem digitBE_setDigitBE_ne {w n : Nat} (v : BitVec (w * n)) {k j : Fin n} (h : j ≠ k) (d : BitVec w) :
    digitBE w n (setDigitBE w n v k d) j = digitBE w n v j := by
  simp [setDigitBE, h]

end Sys2Proof.Machine
end

