-- ==== Sys2Proof/Laws/State.lean ====
section
/-! SUPPORT. One lemma per field per named update of the state, each true by rfl. -/

namespace Sys2Proof.Machine.State

section

variable (s : State)

@[simp] theorem setBin_bin (k : Fin 16) (d : Byte) : (s.setBin k d).bin = s.bin.set k d := rfl
@[simp] theorem setBin_txt (k : Fin 16) (d : Byte) : (s.setBin k d).txt = s.txt := rfl
@[simp] theorem setBin_txtLen (k : Fin 16) (d : Byte) : (s.setBin k d).txtLen = s.txtLen := rfl
@[simp] theorem setBin_tsIn (k : Fin 16) (d : Byte) : (s.setBin k d).tsIn = s.tsIn := rfl
@[simp] theorem setBin_cmd (k : Fin 16) (d : Byte) : (s.setBin k d).cmd = s.cmd := rfl
@[simp] theorem setBin_busy (k : Fin 16) (d : Byte) : (s.setBin k d).busy = s.busy := rfl
@[simp] theorem setBin_errCode (k : Fin 16) (d : Byte) : (s.setBin k d).errCode = s.errCode := rfl
@[simp] theorem setBin_errPos (k : Fin 16) (d : Byte) : (s.setBin k d).errPos = s.errPos := rfl
@[simp] theorem setBin_pendCmd (k : Fin 16) (d : Byte) : (s.setBin k d).pendCmd = s.pendCmd := rfl
@[simp] theorem setBin_entCnt (k : Fin 16) (d : Byte) : (s.setBin k d).entCnt = s.entCnt := rfl
@[simp] theorem setBin_entBuf (k : Fin 16) (d : Byte) : (s.setBin k d).entBuf = s.entBuf := rfl
@[simp] theorem setBin_entTotal (k : Fin 16) (d : Byte) : (s.setBin k d).entTotal = s.entTotal := rfl
@[simp] theorem setBin_rst (k : Fin 16) (d : Byte) : (s.setBin k d).rst = s.rst := rfl
@[simp] theorem setBin_entPort (k : Fin 16) (d : Byte) : (s.setBin k d).entPort = s.entPort := rfl
@[simp] theorem setBin_turns (k : Fin 16) (d : Byte) : (s.setBin k d).turns = s.turns := rfl
@[simp] theorem setBin_rdLog (k : Fin 16) (d : Byte) : (s.setBin k d).rdLog = s.rdLog := rfl
@[simp] theorem setBin_params (k : Fin 16) (d : Byte) : (s.setBin k d).params = s.params := rfl

end

section

variable (s : State)

@[simp] theorem setTxt_bin (i : Fin 26) (d : Byte) : (s.setTxt i d).bin = s.bin := rfl
@[simp] theorem setTxt_txt (i : Fin 26) (d : Byte) : (s.setTxt i d).txt = s.txt.set i d := rfl
@[simp] theorem setTxt_txtLen (i : Fin 26) (d : Byte) : (s.setTxt i d).txtLen = s.txtLen := rfl
@[simp] theorem setTxt_tsIn (i : Fin 26) (d : Byte) : (s.setTxt i d).tsIn = s.tsIn := rfl
@[simp] theorem setTxt_cmd (i : Fin 26) (d : Byte) : (s.setTxt i d).cmd = s.cmd := rfl
@[simp] theorem setTxt_busy (i : Fin 26) (d : Byte) : (s.setTxt i d).busy = s.busy := rfl
@[simp] theorem setTxt_errCode (i : Fin 26) (d : Byte) : (s.setTxt i d).errCode = s.errCode := rfl
@[simp] theorem setTxt_errPos (i : Fin 26) (d : Byte) : (s.setTxt i d).errPos = s.errPos := rfl
@[simp] theorem setTxt_pendCmd (i : Fin 26) (d : Byte) : (s.setTxt i d).pendCmd = s.pendCmd := rfl
@[simp] theorem setTxt_entCnt (i : Fin 26) (d : Byte) : (s.setTxt i d).entCnt = s.entCnt := rfl
@[simp] theorem setTxt_entBuf (i : Fin 26) (d : Byte) : (s.setTxt i d).entBuf = s.entBuf := rfl
@[simp] theorem setTxt_entTotal (i : Fin 26) (d : Byte) : (s.setTxt i d).entTotal = s.entTotal := rfl
@[simp] theorem setTxt_rst (i : Fin 26) (d : Byte) : (s.setTxt i d).rst = s.rst := rfl
@[simp] theorem setTxt_entPort (i : Fin 26) (d : Byte) : (s.setTxt i d).entPort = s.entPort := rfl
@[simp] theorem setTxt_turns (i : Fin 26) (d : Byte) : (s.setTxt i d).turns = s.turns := rfl
@[simp] theorem setTxt_rdLog (i : Fin 26) (d : Byte) : (s.setTxt i d).rdLog = s.rdLog := rfl
@[simp] theorem setTxt_params (i : Fin 26) (d : Byte) : (s.setTxt i d).params = s.params := rfl

end

section

variable (s : State)

@[simp] theorem setTxtLen_bin (v : BitVec 16) : (s.setTxtLen v).bin = s.bin := rfl
@[simp] theorem setTxtLen_txt (v : BitVec 16) : (s.setTxtLen v).txt = s.txt := rfl
@[simp] theorem setTxtLen_txtLen (v : BitVec 16) : (s.setTxtLen v).txtLen = v := rfl
@[simp] theorem setTxtLen_tsIn (v : BitVec 16) : (s.setTxtLen v).tsIn = s.tsIn := rfl
@[simp] theorem setTxtLen_cmd (v : BitVec 16) : (s.setTxtLen v).cmd = s.cmd := rfl
@[simp] theorem setTxtLen_busy (v : BitVec 16) : (s.setTxtLen v).busy = s.busy := rfl
@[simp] theorem setTxtLen_errCode (v : BitVec 16) : (s.setTxtLen v).errCode = s.errCode := rfl
@[simp] theorem setTxtLen_errPos (v : BitVec 16) : (s.setTxtLen v).errPos = s.errPos := rfl
@[simp] theorem setTxtLen_pendCmd (v : BitVec 16) : (s.setTxtLen v).pendCmd = s.pendCmd := rfl
@[simp] theorem setTxtLen_entCnt (v : BitVec 16) : (s.setTxtLen v).entCnt = s.entCnt := rfl
@[simp] theorem setTxtLen_entBuf (v : BitVec 16) : (s.setTxtLen v).entBuf = s.entBuf := rfl
@[simp] theorem setTxtLen_entTotal (v : BitVec 16) : (s.setTxtLen v).entTotal = s.entTotal := rfl
@[simp] theorem setTxtLen_rst (v : BitVec 16) : (s.setTxtLen v).rst = s.rst := rfl
@[simp] theorem setTxtLen_entPort (v : BitVec 16) : (s.setTxtLen v).entPort = s.entPort := rfl
@[simp] theorem setTxtLen_turns (v : BitVec 16) : (s.setTxtLen v).turns = s.turns := rfl
@[simp] theorem setTxtLen_rdLog (v : BitVec 16) : (s.setTxtLen v).rdLog = s.rdLog := rfl
@[simp] theorem setTxtLen_params (v : BitVec 16) : (s.setTxtLen v).params = s.params := rfl

end

section

variable (s : State)

@[simp] theorem setTsIn_bin (v : BitVec 64) : (s.setTsIn v).bin = s.bin := rfl
@[simp] theorem setTsIn_txt (v : BitVec 64) : (s.setTsIn v).txt = s.txt := rfl
@[simp] theorem setTsIn_txtLen (v : BitVec 64) : (s.setTsIn v).txtLen = s.txtLen := rfl
@[simp] theorem setTsIn_tsIn (v : BitVec 64) : (s.setTsIn v).tsIn = v := rfl
@[simp] theorem setTsIn_cmd (v : BitVec 64) : (s.setTsIn v).cmd = s.cmd := rfl
@[simp] theorem setTsIn_busy (v : BitVec 64) : (s.setTsIn v).busy = s.busy := rfl
@[simp] theorem setTsIn_errCode (v : BitVec 64) : (s.setTsIn v).errCode = s.errCode := rfl
@[simp] theorem setTsIn_errPos (v : BitVec 64) : (s.setTsIn v).errPos = s.errPos := rfl
@[simp] theorem setTsIn_pendCmd (v : BitVec 64) : (s.setTsIn v).pendCmd = s.pendCmd := rfl
@[simp] theorem setTsIn_entCnt (v : BitVec 64) : (s.setTsIn v).entCnt = s.entCnt := rfl
@[simp] theorem setTsIn_entBuf (v : BitVec 64) : (s.setTsIn v).entBuf = s.entBuf := rfl
@[simp] theorem setTsIn_entTotal (v : BitVec 64) : (s.setTsIn v).entTotal = s.entTotal := rfl
@[simp] theorem setTsIn_rst (v : BitVec 64) : (s.setTsIn v).rst = s.rst := rfl
@[simp] theorem setTsIn_entPort (v : BitVec 64) : (s.setTsIn v).entPort = s.entPort := rfl
@[simp] theorem setTsIn_turns (v : BitVec 64) : (s.setTsIn v).turns = s.turns := rfl
@[simp] theorem setTsIn_rdLog (v : BitVec 64) : (s.setTsIn v).rdLog = s.rdLog := rfl
@[simp] theorem setTsIn_params (v : BitVec 64) : (s.setTsIn v).params = s.params := rfl

end

section

variable (s : State)

@[simp] theorem logRead_bin (b : Byte) : (s.logRead b).bin = s.bin := rfl
@[simp] theorem logRead_txt (b : Byte) : (s.logRead b).txt = s.txt := rfl
@[simp] theorem logRead_txtLen (b : Byte) : (s.logRead b).txtLen = s.txtLen := rfl
@[simp] theorem logRead_tsIn (b : Byte) : (s.logRead b).tsIn = s.tsIn := rfl
@[simp] theorem logRead_cmd (b : Byte) : (s.logRead b).cmd = s.cmd := rfl
@[simp] theorem logRead_busy (b : Byte) : (s.logRead b).busy = s.busy := rfl
@[simp] theorem logRead_errCode (b : Byte) : (s.logRead b).errCode = s.errCode := rfl
@[simp] theorem logRead_errPos (b : Byte) : (s.logRead b).errPos = s.errPos := rfl
@[simp] theorem logRead_pendCmd (b : Byte) : (s.logRead b).pendCmd = s.pendCmd := rfl
@[simp] theorem logRead_entCnt (b : Byte) : (s.logRead b).entCnt = s.entCnt := rfl
@[simp] theorem logRead_entBuf (b : Byte) : (s.logRead b).entBuf = s.entBuf := rfl
@[simp] theorem logRead_entTotal (b : Byte) : (s.logRead b).entTotal = s.entTotal := rfl
@[simp] theorem logRead_rst (b : Byte) : (s.logRead b).rst = s.rst := rfl
@[simp] theorem logRead_entPort (b : Byte) : (s.logRead b).entPort = s.entPort := rfl
@[simp] theorem logRead_turns (b : Byte) : (s.logRead b).turns = s.turns := rfl
@[simp] theorem logRead_rdLog (b : Byte) : (s.logRead b).rdLog = s.rdLog ++ [b] := rfl
@[simp] theorem logRead_params (b : Byte) : (s.logRead b).params = s.params := rfl

end

section

variable (s : State)

@[simp] theorem setTurns_bin (ts : List Turn) : (s.setTurns ts).bin = s.bin := rfl
@[simp] theorem setTurns_txt (ts : List Turn) : (s.setTurns ts).txt = s.txt := rfl
@[simp] theorem setTurns_txtLen (ts : List Turn) : (s.setTurns ts).txtLen = s.txtLen := rfl
@[simp] theorem setTurns_tsIn (ts : List Turn) : (s.setTurns ts).tsIn = s.tsIn := rfl
@[simp] theorem setTurns_cmd (ts : List Turn) : (s.setTurns ts).cmd = s.cmd := rfl
@[simp] theorem setTurns_busy (ts : List Turn) : (s.setTurns ts).busy = s.busy := rfl
@[simp] theorem setTurns_errCode (ts : List Turn) : (s.setTurns ts).errCode = s.errCode := rfl
@[simp] theorem setTurns_errPos (ts : List Turn) : (s.setTurns ts).errPos = s.errPos := rfl
@[simp] theorem setTurns_pendCmd (ts : List Turn) : (s.setTurns ts).pendCmd = s.pendCmd := rfl
@[simp] theorem setTurns_entCnt (ts : List Turn) : (s.setTurns ts).entCnt = s.entCnt := rfl
@[simp] theorem setTurns_entBuf (ts : List Turn) : (s.setTurns ts).entBuf = s.entBuf := rfl
@[simp] theorem setTurns_entTotal (ts : List Turn) : (s.setTurns ts).entTotal = s.entTotal := rfl
@[simp] theorem setTurns_rst (ts : List Turn) : (s.setTurns ts).rst = s.rst := rfl
@[simp] theorem setTurns_entPort (ts : List Turn) : (s.setTurns ts).entPort = s.entPort := rfl
@[simp] theorem setTurns_turns (ts : List Turn) : (s.setTurns ts).turns = ts := rfl
@[simp] theorem setTurns_rdLog (ts : List Turn) : (s.setTurns ts).rdLog = s.rdLog := rfl
@[simp] theorem setTurns_params (ts : List Turn) : (s.setTurns ts).params = s.params := rfl

end

section

variable (s : State)

@[simp] theorem setRst_bin (level : Bool) : (s.setRst level).bin = s.bin := rfl
@[simp] theorem setRst_txt (level : Bool) : (s.setRst level).txt = s.txt := rfl
@[simp] theorem setRst_txtLen (level : Bool) : (s.setRst level).txtLen = s.txtLen := rfl
@[simp] theorem setRst_tsIn (level : Bool) : (s.setRst level).tsIn = s.tsIn := rfl
@[simp] theorem setRst_cmd (level : Bool) : (s.setRst level).cmd = s.cmd := rfl
@[simp] theorem setRst_busy (level : Bool) : (s.setRst level).busy = s.busy := rfl
@[simp] theorem setRst_errCode (level : Bool) : (s.setRst level).errCode = s.errCode := rfl
@[simp] theorem setRst_errPos (level : Bool) : (s.setRst level).errPos = s.errPos := rfl
@[simp] theorem setRst_pendCmd (level : Bool) : (s.setRst level).pendCmd = s.pendCmd := rfl
@[simp] theorem setRst_entCnt (level : Bool) : (s.setRst level).entCnt = s.entCnt := rfl
@[simp] theorem setRst_entBuf (level : Bool) : (s.setRst level).entBuf = s.entBuf := rfl
@[simp] theorem setRst_entTotal (level : Bool) : (s.setRst level).entTotal = s.entTotal := rfl
@[simp] theorem setRst_rst (level : Bool) : (s.setRst level).rst = level := rfl
@[simp] theorem setRst_entPort (level : Bool) : (s.setRst level).entPort = s.entPort := rfl
@[simp] theorem setRst_turns (level : Bool) : (s.setRst level).turns = s.turns := rfl
@[simp] theorem setRst_rdLog (level : Bool) : (s.setRst level).rdLog = s.rdLog := rfl
@[simp] theorem setRst_params (level : Bool) : (s.setRst level).params = s.params := rfl

end

section

variable (s : State)

@[simp] theorem accept_bin (d : Byte) : (s.accept d).bin = s.bin := rfl
@[simp] theorem accept_txt (d : Byte) : (s.accept d).txt = s.txt := rfl
@[simp] theorem accept_txtLen (d : Byte) : (s.accept d).txtLen = s.txtLen := rfl
@[simp] theorem accept_tsIn (d : Byte) : (s.accept d).tsIn = s.tsIn := rfl
@[simp] theorem accept_cmd (d : Byte) : (s.accept d).cmd = d := rfl
@[simp] theorem accept_busy (d : Byte) : (s.accept d).busy = true := rfl
@[simp] theorem accept_errCode (d : Byte) : (s.accept d).errCode = s.errCode := rfl
@[simp] theorem accept_errPos (d : Byte) : (s.accept d).errPos = s.errPos := rfl
@[simp] theorem accept_pendCmd (d : Byte) : (s.accept d).pendCmd = d := rfl
@[simp] theorem accept_entCnt (d : Byte) : (s.accept d).entCnt = 0 := rfl
@[simp] theorem accept_entBuf (d : Byte) : (s.accept d).entBuf = Vector.replicate 10 0x00#8 := rfl
@[simp] theorem accept_entTotal (d : Byte) : (s.accept d).entTotal = s.entTotal := rfl
@[simp] theorem accept_rst (d : Byte) : (s.accept d).rst = s.rst := rfl
@[simp] theorem accept_entPort (d : Byte) : (s.accept d).entPort = s.entPort := rfl
@[simp] theorem accept_turns (d : Byte) : (s.accept d).turns = s.turns := rfl
@[simp] theorem accept_rdLog (d : Byte) : (s.accept d).rdLog = s.rdLog := rfl
@[simp] theorem accept_params (d : Byte) : (s.accept d).params = s.params := rfl

end

section

variable (s : State)

@[simp] theorem takeEntropy_bin (h : s.entCnt.val < 10) (e : Byte) (rest : List Byte) : (s.takeEntropy h e rest).bin = s.bin := rfl
@[simp] theorem takeEntropy_txt (h : s.entCnt.val < 10) (e : Byte) (rest : List Byte) : (s.takeEntropy h e rest).txt = s.txt := rfl
@[simp] theorem takeEntropy_txtLen (h : s.entCnt.val < 10) (e : Byte) (rest : List Byte) : (s.takeEntropy h e rest).txtLen = s.txtLen := rfl
@[simp] theorem takeEntropy_tsIn (h : s.entCnt.val < 10) (e : Byte) (rest : List Byte) : (s.takeEntropy h e rest).tsIn = s.tsIn := rfl
@[simp] theorem takeEntropy_cmd (h : s.entCnt.val < 10) (e : Byte) (rest : List Byte) : (s.takeEntropy h e rest).cmd = s.cmd := rfl
@[simp] theorem takeEntropy_busy (h : s.entCnt.val < 10) (e : Byte) (rest : List Byte) : (s.takeEntropy h e rest).busy = s.busy := rfl
@[simp] theorem takeEntropy_errCode (h : s.entCnt.val < 10) (e : Byte) (rest : List Byte) : (s.takeEntropy h e rest).errCode = s.errCode := rfl
@[simp] theorem takeEntropy_errPos (h : s.entCnt.val < 10) (e : Byte) (rest : List Byte) : (s.takeEntropy h e rest).errPos = s.errPos := rfl
@[simp] theorem takeEntropy_pendCmd (h : s.entCnt.val < 10) (e : Byte) (rest : List Byte) : (s.takeEntropy h e rest).pendCmd = s.pendCmd := rfl
@[simp] theorem takeEntropy_entCnt (h : s.entCnt.val < 10) (e : Byte) (rest : List Byte) : (s.takeEntropy h e rest).entCnt = ⟨s.entCnt.val + 1, by omega⟩ := rfl
@[simp] theorem takeEntropy_entBuf (h : s.entCnt.val < 10) (e : Byte) (rest : List Byte) : (s.takeEntropy h e rest).entBuf = s.entBuf.set s.entCnt.val e := rfl
@[simp] theorem takeEntropy_entTotal (h : s.entCnt.val < 10) (e : Byte) (rest : List Byte) : (s.takeEntropy h e rest).entTotal = s.entTotal + 1 := rfl
@[simp] theorem takeEntropy_rst (h : s.entCnt.val < 10) (e : Byte) (rest : List Byte) : (s.takeEntropy h e rest).rst = s.rst := rfl
@[simp] theorem takeEntropy_entPort (h : s.entCnt.val < 10) (e : Byte) (rest : List Byte) : (s.takeEntropy h e rest).entPort = rest := rfl
@[simp] theorem takeEntropy_turns (h : s.entCnt.val < 10) (e : Byte) (rest : List Byte) : (s.takeEntropy h e rest).turns = s.turns := rfl
@[simp] theorem takeEntropy_rdLog (h : s.entCnt.val < 10) (e : Byte) (rest : List Byte) : (s.takeEntropy h e rest).rdLog = s.rdLog := rfl
@[simp] theorem takeEntropy_params (h : s.entCnt.val < 10) (e : Byte) (rest : List Byte) : (s.takeEntropy h e rest).params = s.params := rfl

end

section

variable (s : State)

@[simp] theorem applyWrites_bin (w : Writes) : (s.applyWrites w).bin = w.bin.getD s.bin := rfl
@[simp] theorem applyWrites_txt (w : Writes) : (s.applyWrites w).txt = w.txt.getD s.txt := rfl
@[simp] theorem applyWrites_txtLen (w : Writes) : (s.applyWrites w).txtLen = w.txtLen.getD s.txtLen := rfl
@[simp] theorem applyWrites_tsIn (w : Writes) : (s.applyWrites w).tsIn = s.tsIn := rfl
@[simp] theorem applyWrites_cmd (w : Writes) : (s.applyWrites w).cmd = s.cmd := rfl
@[simp] theorem applyWrites_busy (w : Writes) : (s.applyWrites w).busy = s.busy := rfl
@[simp] theorem applyWrites_errCode (w : Writes) : (s.applyWrites w).errCode = s.errCode := rfl
@[simp] theorem applyWrites_errPos (w : Writes) : (s.applyWrites w).errPos = s.errPos := rfl
@[simp] theorem applyWrites_pendCmd (w : Writes) : (s.applyWrites w).pendCmd = s.pendCmd := rfl
@[simp] theorem applyWrites_entCnt (w : Writes) : (s.applyWrites w).entCnt = s.entCnt := rfl
@[simp] theorem applyWrites_entBuf (w : Writes) : (s.applyWrites w).entBuf = s.entBuf := rfl
@[simp] theorem applyWrites_entTotal (w : Writes) : (s.applyWrites w).entTotal = s.entTotal := rfl
@[simp] theorem applyWrites_rst (w : Writes) : (s.applyWrites w).rst = s.rst := rfl
@[simp] theorem applyWrites_entPort (w : Writes) : (s.applyWrites w).entPort = s.entPort := rfl
@[simp] theorem applyWrites_turns (w : Writes) : (s.applyWrites w).turns = s.turns := rfl
@[simp] theorem applyWrites_rdLog (w : Writes) : (s.applyWrites w).rdLog = s.rdLog := rfl
@[simp] theorem applyWrites_params (w : Writes) : (s.applyWrites w).params = s.params := rfl

end

section

variable (s : State)

@[simp] theorem finish_bin (err : ErrCode) (pos : Byte) : (s.finish err pos).bin = s.bin := rfl
@[simp] theorem finish_txt (err : ErrCode) (pos : Byte) : (s.finish err pos).txt = s.txt := rfl
@[simp] theorem finish_txtLen (err : ErrCode) (pos : Byte) : (s.finish err pos).txtLen = s.txtLen := rfl
@[simp] theorem finish_tsIn (err : ErrCode) (pos : Byte) : (s.finish err pos).tsIn = s.tsIn := rfl
@[simp] theorem finish_cmd (err : ErrCode) (pos : Byte) : (s.finish err pos).cmd = s.cmd := rfl
@[simp] theorem finish_busy (err : ErrCode) (pos : Byte) : (s.finish err pos).busy = false := rfl
@[simp] theorem finish_errCode (err : ErrCode) (pos : Byte) : (s.finish err pos).errCode = err := rfl
@[simp] theorem finish_errPos (err : ErrCode) (pos : Byte) : (s.finish err pos).errPos = pos := rfl
@[simp] theorem finish_pendCmd (err : ErrCode) (pos : Byte) : (s.finish err pos).pendCmd = s.pendCmd := rfl
@[simp] theorem finish_entCnt (err : ErrCode) (pos : Byte) : (s.finish err pos).entCnt = s.entCnt := rfl
@[simp] theorem finish_entBuf (err : ErrCode) (pos : Byte) : (s.finish err pos).entBuf = s.entBuf := rfl
@[simp] theorem finish_entTotal (err : ErrCode) (pos : Byte) : (s.finish err pos).entTotal = s.entTotal := rfl
@[simp] theorem finish_rst (err : ErrCode) (pos : Byte) : (s.finish err pos).rst = s.rst := rfl
@[simp] theorem finish_entPort (err : ErrCode) (pos : Byte) : (s.finish err pos).entPort = s.entPort := rfl
@[simp] theorem finish_turns (err : ErrCode) (pos : Byte) : (s.finish err pos).turns = s.turns := rfl
@[simp] theorem finish_rdLog (err : ErrCode) (pos : Byte) : (s.finish err pos).rdLog = s.rdLog := rfl
@[simp] theorem finish_params (err : ErrCode) (pos : Byte) : (s.finish err pos).params = s.params := rfl

end

section

variable (s : State)

@[simp] theorem assertReset_bin : (s.assertReset).bin = State.reset.bin := rfl
@[simp] theorem assertReset_txt : (s.assertReset).txt = State.reset.txt := rfl
@[simp] theorem assertReset_txtLen : (s.assertReset).txtLen = State.reset.txtLen := rfl
@[simp] theorem assertReset_tsIn : (s.assertReset).tsIn = State.reset.tsIn := rfl
@[simp] theorem assertReset_cmd : (s.assertReset).cmd = State.reset.cmd := rfl
@[simp] theorem assertReset_busy : (s.assertReset).busy = State.reset.busy := rfl
@[simp] theorem assertReset_errCode : (s.assertReset).errCode = State.reset.errCode := rfl
@[simp] theorem assertReset_errPos : (s.assertReset).errPos = State.reset.errPos := rfl
@[simp] theorem assertReset_pendCmd : (s.assertReset).pendCmd = State.reset.pendCmd := rfl
@[simp] theorem assertReset_entCnt : (s.assertReset).entCnt = State.reset.entCnt := rfl
@[simp] theorem assertReset_entBuf : (s.assertReset).entBuf = State.reset.entBuf := rfl
@[simp] theorem assertReset_entTotal : (s.assertReset).entTotal = State.reset.entTotal := rfl
@[simp] theorem assertReset_rst : (s.assertReset).rst = true := rfl
@[simp] theorem assertReset_entPort : (s.assertReset).entPort = s.entPort := rfl
@[simp] theorem assertReset_turns : (s.assertReset).turns = s.turns := rfl
@[simp] theorem assertReset_rdLog : (s.assertReset).rdLog = s.rdLog := rfl
@[simp] theorem assertReset_params : (s.assertReset).params = s.params := rfl

end

end Sys2Proof.Machine.State
end

