-- ==== Sys2Proof/Laws/Ops.lean ====
section
/-! SUPPORT. What each shared operation can do: the commit, the register space, an instruction's outcome. -/

namespace Sys2Proof.Machine

/-! ### The commit -/

@[simp] theorem commit_done (s : State) (w : Writes) : s.commit (.done w) = (s.applyWrites w).finish .none 0xFF#8 := rfl

@[simp] theorem commit_raise (s : State) (e : ErrCode) (p : Byte) : s.commit (.raise e p) = s.finish e p := rfl

/-- A commit writes BIN, TXT, TXT_LEN, ERRCODE, ERR_POS and BUSY at most. -/
theorem commit_frame (s : State) (r : CmdResult) :
    s.commit r = { s with
      bin := (s.commit r).bin, txt := (s.commit r).txt, txtLen := (s.commit r).txtLen,
      errCode := (s.commit r).errCode, errPos := (s.commit r).errPos, busy := false } := by
  cases r <;> rfl

@[simp] theorem commit_busy (s : State) (r : CmdResult) : (s.commit r).busy = false := by cases r <;> rfl

@[simp] theorem commit_tsIn (s : State) (r : CmdResult) : (s.commit r).tsIn = s.tsIn := by cases r <;> rfl

@[simp] theorem commit_cmd (s : State) (r : CmdResult) : (s.commit r).cmd = s.cmd := by cases r <;> rfl

@[simp] theorem commit_pendCmd (s : State) (r : CmdResult) : (s.commit r).pendCmd = s.pendCmd := by cases r <;> rfl

@[simp] theorem commit_entCnt (s : State) (r : CmdResult) : (s.commit r).entCnt = s.entCnt := by cases r <;> rfl

@[simp] theorem commit_entBuf (s : State) (r : CmdResult) : (s.commit r).entBuf = s.entBuf := by cases r <;> rfl

@[simp] theorem commit_entTotal (s : State) (r : CmdResult) : (s.commit r).entTotal = s.entTotal := by cases r <;> rfl

@[simp] theorem commit_rst (s : State) (r : CmdResult) : (s.commit r).rst = s.rst := by cases r <;> rfl

@[simp] theorem commit_entPort (s : State) (r : CmdResult) : (s.commit r).entPort = s.entPort := by cases r <;> rfl

@[simp] theorem commit_turns (s : State) (r : CmdResult) : (s.commit r).turns = s.turns := by cases r <;> rfl

@[simp] theorem commit_rdLog (s : State) (r : CmdResult) : (s.commit r).rdLog = s.rdLog := by cases r <;> rfl

@[simp] theorem commit_params (s : State) (r : CmdResult) : (s.commit r).params = s.params := by cases r <;> rfl

@[simp] theorem unitCommit_of_busy {s : State} (h : s.busy = true) (r : CmdResult) : unitCommit s r = s.commit r := by
  simp [unitCommit, h]

@[simp] theorem unitCommit_of_idle {s : State} (h : s.busy = false) (r : CmdResult) : unitCommit s r = s := by
  simp [unitCommit, h]

/-! ### Identifier values and their numeric readings -/

/-- Byte `k` of the value read back from a number. -/
@[simp] theorem getElem_ofNumeric (v : BitVec 128) (k : Nat) (h : k < 16) : (ofNumeric v)[k] = digitBE 8 16 v ⟨k, h⟩ := by
  simp [ofNumeric]

/-- The numeric reading of `ofNumeric v` is `v` (R20). -/
@[simp] theorem numeric_ofNumeric (v : BitVec 128) : numeric (ofNumeric v) = v := by
  have h : (fun k : Fin 16 => (ofNumeric v)[k.val]) = digitBE 8 16 v := by funext k; simp
  unfold numeric
  rw [h]
  exact joinBE_digitBE (w := 8) (n := 16) v

/-- An identifier value is determined by its numeric reading (R20). -/
@[simp] theorem ofNumeric_numeric (b : Identifier) : ofNumeric (numeric b) = b := by
  apply Vector.ext
  intro k hk
  rw [getElem_ofNumeric]
  exact digitBE_joinBE (fun k : Fin 16 => b[k.val]) ⟨k, hk⟩

/-- Byte `k` is digit `k` of the numeric reading (R20). -/
theorem digitBE_numeric (b : Identifier) (k : Fin 16) : digitBE 8 16 (numeric b) k = b[k.val] :=
  digitBE_joinBE (fun k : Fin 16 => b[k.val]) k

/-! ### The register space -/

/-- Every location but CMD, when written, keeps the unit idle or busy as it was. -/
theorem writeLoc_busy (s : State) (d : Byte) (l : Loc) (h : l ≠ .cmd) : (writeLoc s d l).busy = s.busy := by
  cases l <;> first | rfl | exact absurd rfl h

/-- A host write changes at most one of BIN, TXT, TXT_LEN and TS_IN, or accepts a command. -/
theorem writeLoc_cases (s : State) (d : Byte) (l : Loc) :
    writeLoc s d l = s ∨
    (∃ k, l = .bin k ∧ writeLoc s d l = s.setBin k d) ∨
    (∃ i, l = .txt i ∧ writeLoc s d l = s.setTxt i d) ∨
    (∃ v, writeLoc s d l = s.setTxtLen v) ∨
    (∃ v, writeLoc s d l = s.setTsIn v) ∨
    (l = .cmd ∧ writeLoc s d l = s.accept d) := by
  cases l <;> simp [writeLoc]

/-- 0x00–0x0F (R61). -/
theorem locOf_bin {a : Byte} (k : Fin 16) (h : a.toNat = k.val) : locOf a = .bin k := by
  have := k.isLt
  unfold locOf
  rw [dif_pos (by omega)]
  exact congrArg Loc.bin (Fin.ext h)

/-- 0x10–0x29 (R61). -/
theorem locOf_txt {a : Byte} (i : Fin 26) (h : a.toNat = 0x10 + i.val) : locOf a = .txt i := by
  have := i.isLt
  unfold locOf
  rw [dif_neg (by omega), dif_pos (by omega)]
  exact congrArg Loc.txt (Fin.ext (show a.toNat - 0x10 = i.val by omega))

/-- 0x2A and 0x2B (R61). -/
theorem locOf_txtLen {a : Byte} (j : Fin 2) (h : a.toNat = 0x2A + j.val) : locOf a = .txtLen j := by
  have := j.isLt
  unfold locOf
  rw [dif_neg (by omega), dif_neg (by omega), dif_pos (by omega)]
  exact congrArg Loc.txtLen (Fin.ext (show a.toNat - 0x2A = j.val by omega))

/-- 0x30–0x37 (R61). -/
theorem locOf_tsIn {a : Byte} (j : Fin 8) (h : a.toNat = 0x30 + j.val) : locOf a = .tsIn j := by
  have := j.isLt
  unfold locOf
  rw [dif_neg (by omega), dif_neg (by omega), dif_neg (by omega), dif_neg (by omega), dif_pos (by omega)]
  exact congrArg Loc.tsIn (Fin.ext (show a.toNat - 0x30 = j.val by omega))

/-- 0x38–0x3F (R61). -/
theorem locOf_tsOut {a : Byte} (j : Fin 8) (h : a.toNat = 0x38 + j.val) : locOf a = .tsOut j := by
  have := j.isLt
  unfold locOf
  rw [dif_neg (by omega), dif_neg (by omega), dif_neg (by omega), dif_neg (by omega), dif_neg (by omega),
    dif_pos (by omega)]
  exact congrArg Loc.tsOut (Fin.ext (show a.toNat - 0x38 = j.val by omega))

@[simp] theorem locOf_cmd : locOf 0x40#8 = .cmd := by decide

@[simp] theorem locOf_status : locOf 0x41#8 = .status := by decide

@[simp] theorem locOf_errPos : locOf 0x42#8 = .errPos := by decide

@[simp] theorem locOf_caps : locOf 0x43#8 = .caps := by decide

/-- 0x2C–0x2F and 0x44–0xFF (R61). -/
theorem locOf_reserved {a : Byte} (h : 0x2C ≤ a.toNat ∧ a.toNat ≤ 0x2F ∨ 0x44 ≤ a.toNat) : locOf a = .reserved := by
  unfold locOf
  rw [dif_neg (by omega), dif_neg (by omega), dif_neg (by omega)]
  rcases h with h | h
  · rw [dif_pos h.2]
  · rw [dif_neg (by omega), dif_neg (by omega), dif_neg (by omega), if_neg (by omega), if_neg (by omega),
      if_neg (by omega), if_neg (by omega)]

/-- The map has no other entries: every address is of one of these kinds (R61). -/
theorem locOf_cases (a : Byte) :
    (∃ k : Fin 16, a.toNat = k.val) ∨ (∃ i : Fin 26, a.toNat = 0x10 + i.val) ∨ (∃ j : Fin 2, a.toNat = 0x2A + j.val) ∨
    (∃ j : Fin 8, a.toNat = 0x30 + j.val) ∨ (∃ j : Fin 8, a.toNat = 0x38 + j.val) ∨ a = 0x40#8 ∨ a = 0x41#8 ∨
    a = 0x42#8 ∨ a = 0x43#8 ∨ (0x2C ≤ a.toNat ∧ a.toNat ≤ 0x2F ∨ 0x44 ≤ a.toNat) := by
  have named : ∀ n : Byte, a.toNat = n.toNat → a = n := fun n h => BitVec.eq_of_toNat_eq h
  by_cases h1 : a.toNat ≤ 0x0F
  · exact .inl ⟨⟨a.toNat, by omega⟩, rfl⟩
  by_cases h2 : a.toNat ≤ 0x29
  · exact .inr (.inl ⟨⟨a.toNat - 0x10, by omega⟩, by simp only; omega⟩)
  by_cases h3 : a.toNat ≤ 0x2B
  · exact .inr (.inr (.inl ⟨⟨a.toNat - 0x2A, by omega⟩, by simp only; omega⟩))
  by_cases h4 : a.toNat ≤ 0x2F
  · exact .inr (.inr (.inr (.inr (.inr (.inr (.inr (.inr (.inr (.inl ⟨by omega, h4⟩)))))))))
  by_cases h5 : a.toNat ≤ 0x37
  · exact .inr (.inr (.inr (.inl ⟨⟨a.toNat - 0x30, by omega⟩, by simp only; omega⟩)))
  by_cases h6 : a.toNat ≤ 0x3F
  · exact .inr (.inr (.inr (.inr (.inl ⟨⟨a.toNat - 0x38, by omega⟩, by simp only; omega⟩))))
  by_cases h7 : a.toNat = 0x40
  · exact .inr (.inr (.inr (.inr (.inr (.inl (named _ h7))))))
  by_cases h8 : a.toNat = 0x41
  · exact .inr (.inr (.inr (.inr (.inr (.inr (.inl (named _ h8)))))))
  by_cases h9 : a.toNat = 0x42
  · exact .inr (.inr (.inr (.inr (.inr (.inr (.inr (.inl (named _ h9))))))))
  by_cases h10 : a.toNat = 0x43
  · exact .inr (.inr (.inr (.inr (.inr (.inr (.inr (.inr (.inl (named _ h10)))))))))
  · exact .inr (.inr (.inr (.inr (.inr (.inr (.inr (.inr (.inr (.inr (by omega))))))))))

/-- Only addresses 0x00–0x0F hold BIN (R61). -/
theorem locOf_eq_bin {a : Byte} {k : Fin 16} (h : locOf a = .bin k) : a.toNat = k.val := by
  unfold locOf at h
  split_ifs at h
  cases h
  rfl

/-- Only address 0x40 holds CMD (R61). -/
theorem locOf_eq_cmd {a : Byte} (h : locOf a = .cmd) : a = 0x40#8 := by
  unfold locOf at h
  split_ifs at h with _ _ _ _ _ _ h7
  exact BitVec.eq_of_toNat_eq h7

/-- The digit written at a location reads back, for every location that stores what is written. -/
theorem readLoc_writeLoc (s : State) (d : Byte) (l : Loc) :
    readLoc (writeLoc s d l) l = match l with
      | .bin _ => d
      | .txt _ => d
      | .txtLen _ => d
      | .tsIn _ => d
      | .cmd => d
      | .tsOut j => readLoc s (.tsOut j)
      | .status => readLoc s .status
      | .errPos => readLoc s .errPos
      | .caps => readLoc s .caps
      | .reserved => readLoc s .reserved := by
  cases l with
  | bin k => simp [readLoc, writeLoc]
  | txt i => simp [readLoc, writeLoc]
  | txtLen j => exact digitBE_setDigitBE_same (w := 8) (n := 2) s.txtLen j d
  | tsIn j => exact digitBE_setDigitBE_same (w := 8) (n := 8) s.tsIn j d
  | tsOut j => rfl
  | cmd => rfl
  | status => rfl
  | errPos => rfl
  | caps => rfl
  | reserved => rfl

/-! ### What a pending command can do -/

/-- PACK on the unit's turn: nothing, one entropy step, or its commit. -/
theorem execPack_cases {s t : State} (h : execPack s = .next t) :
    (t = s ∧ (s.busy = false ∨ s.entCnt.val < 10 ∧ s.entPort = [])) ∨
    (∃ (hc : s.entCnt.val < 10) (e : Byte) (rest : List Byte),
      s.busy = true ∧ s.entPort = e :: rest ∧ t = s.takeEntropy hc e rest) ∨
    (s.busy = true ∧ s.entCnt.val = 10 ∧ t = s.commit (packResult s)) := by
  have hlt := s.entCnt.isLt
  simp only [execPack, Host.Outcome.next.injEq] at h
  split_ifs at h with hb hc
  · cases hp : s.entPort with
    | nil => exact .inl ⟨by simpa [hp] using h.symm, .inr ⟨hc, rfl⟩⟩
    | cons e rest => exact .inr (.inl ⟨hc, e, rest, hb, rfl, by simpa [hp] using h.symm⟩)
  · exact .inr (.inr ⟨hb, by omega, h.symm⟩)
  · exact .inl ⟨h.symm, .inl (by simpa using hb)⟩

/-- A pending command's step is an entropy step of PACK, a wait of PACK, or a commit of some result. -/
theorem exec_decodeCmd_cases {s t : State} {c : Byte} (hb : s.busy = true) (h : exec (decodeCmd c) s = .next t) :
    (c = 0x01#8 ∧ s.entCnt.val < 10 ∧ s.entPort = [] ∧ t = s) ∨
    (c = 0x01#8 ∧ ∃ (hc : s.entCnt.val < 10) (e : Byte) (rest : List Byte), s.entPort = e :: rest ∧
      t = s.takeEntropy hc e rest) ∨
    (c = 0x01#8 ∧ s.entCnt.val = 10 ∧ t = s.commit (packResult s)) ∨
    (c = 0x00#8 ∧ t = s.commit (.done Writes.nothing)) ∨
    (c = 0x02#8 ∧ t = s.commit (encodeResult s)) ∨
    (c = 0x03#8 ∧ t = s.commit (decodeResult s.params s.txtLen s.txt)) ∨
    (4 ≤ c.toNat ∧ t = s.commit (.raise .illegalCommand 0xFF#8)) := by
  unfold decodeCmd at h
  split_ifs at h with h0 h1 h2 h3
  · simp only [exec, execNop, unitCommit_of_busy hb, Host.Outcome.next.injEq] at h
    exact .inr (.inr (.inr (.inl ⟨h0, h.symm⟩)))
  · rcases execPack_cases h with ⟨ht, hi | hw⟩ | ⟨hc, e, rest, -, hp, ht⟩ | ⟨-, hc, ht⟩
    · exact absurd hi (by simp [hb])
    · exact .inl ⟨h1, hw.1, hw.2, ht⟩
    · exact .inr (.inl ⟨h1, hc, e, rest, hp, ht⟩)
    · exact .inr (.inr (.inl ⟨h1, hc, ht⟩))
  · simp only [exec, execEncode, unitCommit_of_busy hb, Host.Outcome.next.injEq] at h
    exact .inr (.inr (.inr (.inr (.inl ⟨h2, h.symm⟩))))
  · simp only [exec, execDecode, unitCommit_of_busy hb, Host.Outcome.next.injEq] at h
    exact .inr (.inr (.inr (.inr (.inr (.inl ⟨h3, h.symm⟩)))))
  · simp only [exec, execIllegal, unitCommit_of_busy hb, Host.Outcome.next.injEq] at h
    refine .inr (.inr (.inr (.inr (.inr (.inr ⟨?_, h.symm⟩)))))
    have e0 : c.toNat ≠ 0 := fun e => h0 (BitVec.eq_of_toNat_eq e)
    have e1 : c.toNat ≠ 1 := fun e => h1 (BitVec.eq_of_toNat_eq e)
    have e2 : c.toNat ≠ 2 := fun e => h2 (BitVec.eq_of_toNat_eq e)
    have e3 : c.toNat ≠ 3 := fun e => h3 (BitVec.eq_of_toNat_eq e)
    omega

/-- What a DECODE can come to: one of the two errors, or a new BIN. -/
theorem decodeResult_cases (p : Params) (len : BitVec 16) (t : Text) :
    decodeResult p len t = .raise .invalidLength 0xFF#8 ∨
    (∃ i : Fin 26, decodeResult p len t = .raise .invalidCharacter (BitVec.ofNat 8 i.val)) ∨
    decodeResult p len t = .done { bin := some (valueOf p t), txt := none, txtLen := none } := by
  unfold decodeResult
  split_ifs
  · exact .inl rfl
  · cases hf : firstBad p t with
    | some i => exact .inr (.inl ⟨i, rfl⟩)
    | none => exact .inr (.inr rfl)

end Sys2Proof.Machine
end

