-- ==== Sys2Proof/Laws/Codec.lean ====
section
/-! SUPPORT. The codec's functions bit by bit: the numeric reading, the symbols, the assembled value, the TS_OUT view,
the packed timestamp, and DECODE's character check. -/

namespace Sys2Proof.Machine

/-- Bit `n` of the numeric reading is a bit of byte 15 - n/8 (R20). -/
theorem numeric_bit (b : Identifier) (n : Nat) (h : n < 128) :
    (numeric b).getLsbD n = (b[15 - n / 8]'(by omega)).getLsbD (n % 8) := by
  have e := congrArg (fun v => v.getLsbD (n % 8)) (digitBE_numeric b ⟨15 - n / 8, by omega⟩)
  simp only [digitBE, BitVec.getLsbD_extractLsb'] at e
  rw [show 8 * (16 - 1 - (15 - n / 8)) + n % 8 = n by omega] at e
  have hm : n % 8 < 8 := by omega
  simpa [hm] using e

/-- Bit `i` of symbol `k` is bit 125 - 5k + i of W (R86). -/
theorem symbolOf_bit (b : Identifier) (k : Fin 26) (i : Nat) (hi : i < 5) :
    (symbolOf b k).getLsbD i = (decide (125 - 5 * k.val + i < 130) && (numeric b).getLsbD (125 - 5 * k.val + i)) := by
  have := k.isLt
  simp only [symbolOf, digitBE, BitVec.getLsbD_extractLsb', BitVec.getLsbD_setWidth]
  rw [show 5 * (26 - 1 - k.val) = 125 - 5 * k.val by omega]
  simp [hi]

/-- The 26 symbols joined are W (R86). -/
theorem joinBE_symbolOf (b : Identifier) : joinBE (symbolOf b) = (numeric b).setWidth 130 :=
  joinBE_digitBE (w := 5) (n := 26) ((numeric b).setWidth 130)

/-- Character `i` of a text form (R160). -/
theorem getElem_textOf (b : Identifier) (i : Nat) (h : i < 26) : (textOf b)[i] = encRom (symbolOf b ⟨i, h⟩) := by
  simp [textOf]

/-- Bit `i` of byte `k` of an assembled value is bit 120 - 8k + i of W' (R87). -/
theorem assemble_bit (y : Fin 26 → Symbol) (k i : Nat) (hk : k < 16) (hi : i < 8) :
    ((assemble y)[k]).getLsbD i = (y ⟨25 - (120 - 8 * k + i) / 5, by omega⟩).getLsbD ((120 - 8 * k + i) % 5) := by
  have e := congrArg (fun v => v.getLsbD ((120 - 8 * k + i) % 5))
    (digitBE_joinBE y ⟨25 - (120 - 8 * k + i) / 5, by omega⟩)
  simp only [digitBE, BitVec.getLsbD_extractLsb'] at e
  rw [show 5 * (26 - 1 - (25 - (120 - 8 * k + i) / 5)) + (120 - 8 * k + i) % 5 = 120 - 8 * k + i by omega] at e
  have hm : (120 - 8 * k + i) % 5 < 5 := by omega
  simp only [hm, decide_true, Bool.true_and] at e
  unfold assemble
  rw [getElem_ofNumeric]
  simp only [digitBE, BitVec.getLsbD_extractLsb', BitVec.getLsbD_setWidth]
  rw [show 8 * (16 - 1 - k) + i = 120 - 8 * k + i by omega]
  have h128 : 120 - 8 * k + i < 128 := by omega
  simp only [hi, h128, decide_true, Bool.true_and, e]

/-- The two top bytes of TS_OUT are zero (R210). -/
theorem digitBE_tsOut_high (b : Identifier) (j : Fin 8) (hj : j.val < 2) : digitBE 8 8 (tsOut b) j = 0#8 := by
  apply BitVec.eq_of_getLsbD_eq
  intro i _
  simp only [digitBE, tsOut, BitVec.getLsbD_extractLsb', BitVec.getLsbD_setWidth]
  have : 8 * 6 ≤ 8 * (8 - 1 - j.val) + i := by omega
  simp [BitVec.getLsbD_of_ge _ _ this]

/-- Byte `k + 2` of TS_OUT is BIN[k] (R210). -/
theorem digitBE_tsOut_low (b : Identifier) (k : Fin 6) : digitBE 8 8 (tsOut b) ⟨k.val + 2, by omega⟩ = b[k.val] := by
  have := k.isLt
  rw [← digitBE_joinBE (fun k : Fin 6 => b[k.val]) k]
  apply BitVec.eq_of_getLsbD_eq
  intro i hi
  simp only [digitBE, tsOut, BitVec.getLsbD_extractLsb', BitVec.getLsbD_setWidth]
  rw [show 8 * (8 - 1 - (k.val + 2)) = 8 * (6 - 1 - k.val) by omega]
  have : 8 * (6 - 1 - k.val) + i < 64 := by omega
  simp [hi, this]

/-- TS_OUT as a number is the big-endian number in BIN[0..5] (R210). -/
theorem toNat_tsOut (b : Identifier) : (tsOut b).toNat = (joinBE (fun k : Fin 6 => b[k.val])).toNat := by
  unfold tsOut
  rw [BitVec.toNat_setWidth, Nat.mod_eq_of_lt]
  have := (joinBE (fun k : Fin 6 => b[k.val])).isLt
  omega

/-- Byte `k` of the packed timestamp is ts48[47-8k : 40-8k] (R140). -/
theorem digitBE_ts48 (v : BitVec 64) (k : Fin 6) : digitBE 8 6 (ts48 v) k = v.extractLsb' (40 - 8 * k.val) 8 := by
  have := k.isLt
  apply BitVec.eq_of_getLsbD_eq
  intro i hi
  simp only [digitBE, ts48, BitVec.getLsbD_extractLsb']
  rw [show 8 * (6 - 1 - k.val) = 40 - 8 * k.val by omega]
  have : 40 - 8 * k.val + i < 48 := by omega
  simp [hi, this]

/-- A DecROM word is the sentinel or a symbol (R90). -/
theorem decRom_cases : ∀ (l : Bool) (c : Byte), decRom l c = 0xFF#8 ∨ (decRom l c).toNat < 32 := by decide

/-- The character check, as a function and as the words of the rules (R182, R183). -/
theorem isBad_eq_false_iff (p : Params) (t : Text) (i : Fin 26) : isBad p t i = false ↔ goodAt p t i := by
  have hs : ∀ w : Byte, w.toNat < 32 → (romSymbol w).toNat = w.toNat := by
    intro w h
    simp only [romSymbol, BitVec.extractLsb'_toNat, Nat.shiftRight_zero]
    omega
  unfold isBad goodAt isSentinel charSymbol sentinel
  rcases decRom_cases p.lowercase t[i.val] with h | h
  · simp [h]
  · have hne : decRom p.lowercase t[i.val] ≠ 0xFF#8 := by
      intro e
      rw [e] at h
      exact absurd h (by decide)
    rw [hs _ h]
    simp [hne]

/-- No bad index means that every character is good (R180). -/
theorem firstBad_eq_none_iff (p : Params) (t : Text) : firstBad p t = none ↔ ∀ i, goodAt p t i := by
  unfold firstBad
  rw [List.find?_eq_none]
  refine ⟨fun h i => ?_, fun h i _ => ?_⟩
  · rw [← isBad_eq_false_iff]
    simpa using h i (List.mem_finRange i)
  · rw [(isBad_eq_false_iff p t i).mpr (h i)]
    simp

end Sys2Proof.Machine
end

