-- ==== Sys2Proof/Laws/Encoding.lean ====
section
/-! SUPPORT. The fields of a bus word that was put together from them, and the word put together from its fields. -/

namespace Sys2Proof

@[simp] theorem busWe_busWord (we : Bool) (a d : Byte) : busWe (busWord we a d) = we := by
  simp only [busWe, busWord, BitVec.getLsbD_append]
  cases we <;> rfl

@[simp] theorem busAddr_busWord (we : Bool) (a d : Byte) : busAddr (busWord we a d) = a := by
  apply BitVec.eq_of_getLsbD_eq
  intro i hi
  simp only [busAddr, busWord, BitVec.getLsbD_extractLsb', BitVec.getLsbD_append]
  simp [hi]

@[simp] theorem busData_busWord (we : Bool) (a d : Byte) : busData (busWord we a d) = d := by
  apply BitVec.eq_of_getLsbD_eq
  intro i hi
  simp only [busData, busWord, BitVec.getLsbD_extractLsb', BitVec.getLsbD_append]
  simp [hi]

/-- A bus word is its three fields (R80). -/
theorem busWord_fields (w : BusWord) : busWord (busWe w) (busAddr w) (busData w) = w := by
  apply BitVec.eq_of_getLsbD_eq
  intro i hi
  simp only [busWe, busAddr, busData, busWord, BitVec.getLsbD_append, BitVec.getLsbD_extractLsb', BitVec.getLsbD_ofBool]
  by_cases h8 : i < 8
  · simp [h8]
  · by_cases h16 : i < 16
    · have h : i - 8 < 8 := by omega
      simp [h8, h, show 8 + (i - 8) = i by omega]
    · obtain rfl : i = 16 := by omega
      simp

end Sys2Proof
end

