-- ==== Sys2Proof/Laws/PerInstr.lean ====
section
/-! SUPPORT. Statements made per instruction: the encoded word carries the fixed bits of its row of spec/opcode_table.json. -/

namespace Sys2Proof.Laws

/-- A row of spec/opcode_table.json: its format, match and mask. -/
structure Row where
  format : Format
  matchBits : Nat
  mask : Nat
  deriving DecidableEq, Repr

/-- Whether an encoded instruction matches a row. -/
def Row.holds (r : Row) : Encoded → Bool
  | .bus w => r.format == .bus17 && w.toNat &&& r.mask == r.matchBits
  | .cmd c => r.format == .cmd8 && c.toNat &&& r.mask == r.matchBits

/-- The rows of each instruction's mnemonic. -/
def rowsOf : Instr → List Row
  | .hrd _ => [⟨.bus17, 0x00000, 0x10000⟩]
  | .hwr _ _ => [⟨.bus17, 0x10000, 0x10000⟩]
  | .nop => [⟨.cmd8, 0x00, 0xFF⟩]
  | .pack => [⟨.cmd8, 0x01, 0xFF⟩]
  | .encode => [⟨.cmd8, 0x02, 0xFF⟩]
  | .decode => [⟨.cmd8, 0x03, 0xFF⟩]
  | .illegal _ => [⟨.cmd8, 0x04, 0x04⟩, ⟨.cmd8, 0x08, 0x0C⟩, ⟨.cmd8, 0x10, 0x1C⟩, ⟨.cmd8, 0x20, 0x3C⟩,
      ⟨.cmd8, 0x40, 0x7C⟩, ⟨.cmd8, 0x80, 0xFC⟩]

namespace EncodeMatchesRow

/-- A well-formed instruction's word matches exactly one row of its mnemonic. -/
def Statement (i : Instr) : Prop :=
  i.wf = true → ((rowsOf i).filter (fun r => r.holds (encode i))).length = 1

theorem busWord_we (we : Bool) (a d : Byte) : (busWord we a d).toNat &&& 0x10000 = if we then 0x10000 else 0 := by
  have h : (busWord we a d).toNat = we.toNat * 2 ^ 16 + (a.toNat * 2 ^ 8 + d.toNat) := by
    have ha := a.isLt
    have hd := d.isLt
    simp only [busWord, BitVec.toNat_append, BitVec.toNat_ofBool]
    rw [← Nat.shiftLeft_add_eq_or_of_lt ha, ← Nat.shiftLeft_add_eq_or_of_lt hd]
    simp only [Nat.shiftLeft_eq]
    ring
  have ha := a.isLt
  have hd := d.isLt
  have hl : a.toNat * 2 ^ 8 + d.toNat < 2 ^ 16 := by omega
  have ht : (busWord we a d).toNat &&& 0x10000 = ((busWord we a d).toNat.testBit 16).toNat * 2 ^ 16 := by
    rw [show (0x10000 : Nat) = 2 ^ 16 from rfl, Nat.and_two_pow]
  rw [ht, h, Nat.mul_comm we.toNat, Nat.testBit_two_pow_mul_add _ hl]
  cases we <;> simp

theorem hrd (a : Byte) : Statement (.hrd a) := by
  intro _
  simp [rowsOf, encode, Row.holds, busWord_we]

theorem hwr (a d : Byte) : Statement (.hwr a d) := by
  intro _
  simp [rowsOf, encode, Row.holds, busWord_we]

theorem nop : Statement .nop := by
  unfold Statement
  decide

theorem pack : Statement .pack := by
  unfold Statement
  decide

theorem encode : Statement .encode := by
  unfold Statement
  decide

theorem decode : Statement .decode := by
  unfold Statement
  decide

theorem illegal (c : Byte) : Statement (.illegal c) := by
  revert c
  unfold Statement
  decide

end EncodeMatchesRow

end Sys2Proof.Laws
end

