-- ==== Sys2Proof/Laws/Step.lean ====
section
/-! SUPPORT. Everything a step can do, said once. -/

namespace Sys2Proof.Machine

/-- The unit's turn in a state whose next turn is `s'`: quiet while rst = 1 or idle, else the pending command. -/
theorem unitTurn_cases {s t : State} (h : (match unitTurn s with | .run i s' => exec i s' | .quiet s' => .next s') = .next t) :
    ((s.rst = true ∨ s.busy = false) ∧ t = s) ∨
    (s.rst = false ∧ s.busy = true ∧ exec (decodeCmd s.pendCmd) s = .next t) := by
  cases hr : s.rst <;> cases hb : s.busy <;> simp [unitTurn, hr, hb] at h ⊢
  · exact h.symm
  · exact h
  · exact h.symm
  · exact h.symm

/-- One step is one of: a change of the reset input; a transaction ignored while rst = 1; an HRD; an HWR; a unit turn
with nothing to do; a unit turn that runs the pending command. -/
theorem step_cases {s t : State} (h : step s = .next t) :
    (∃ level ts, s.turns = .rst level :: ts ∧ t = (s.setTurns ts).resetInput level) ∨
    (∃ w ts, s.turns = .host w :: ts ∧ s.rst = true ∧ t = hostDuringReset w (s.setTurns ts)) ∨
    (∃ w ts, s.turns = .host w :: ts ∧ s.rst = false ∧ busWe w = false ∧
      t = (s.setTurns ts).logRead (readByte (s.setTurns ts) (busAddr w))) ∨
    (∃ w ts, s.turns = .host w :: ts ∧ s.rst = false ∧ busWe w = true ∧
      t = if s.busy then s.setTurns ts else writeByte (s.setTurns ts) (busAddr w) (busData w)) ∨
    (∃ ts, (s.turns = [] ∧ ts = [] ∨ s.turns = .unit :: ts) ∧ (s.rst = true ∨ s.busy = false) ∧ t = s.setTurns ts) ∨
    (∃ ts, (s.turns = [] ∧ ts = [] ∨ s.turns = .unit :: ts) ∧ s.rst = false ∧ s.busy = true ∧
      exec (decodeCmd s.pendCmd) (s.setTurns ts) = .next t) := by
  unfold step fetch at h
  cases hts : s.turns with
  | nil =>
    have hs : s.setTurns [] = s := by cases s; simp_all [State.setTurns]
    simp only [hts] at h
    rcases unitTurn_cases h with ⟨hq, ht⟩ | ⟨hr, hb, he⟩
    · exact .inr (.inr (.inr (.inr (.inl ⟨[], .inl ⟨rfl, rfl⟩, hq, by rw [hs, ht]⟩))))
    · exact .inr (.inr (.inr (.inr (.inr ⟨[], .inl ⟨rfl, rfl⟩, hr, hb, by rw [hs, he]⟩))))
  | cons a ts =>
    cases a with
    | host w =>
      simp only [hts, hostTurn, State.setTurns_rst] at h
      cases hr : s.rst
      · simp only [hr, Bool.false_eq_true, if_false, decodeBus] at h
        cases hw : busWe w
        · simp only [hw, Bool.false_eq_true, if_false, exec, execHrd, Host.Outcome.next.injEq] at h
          exact .inr (.inr (.inl ⟨w, ts, rfl, rfl, hw, h.symm⟩))
        · simp only [hw, if_true, exec, execHwr, Host.Outcome.next.injEq] at h
          exact .inr (.inr (.inr (.inl ⟨w, ts, rfl, rfl, hw, h.symm⟩)))
      · simp only [hr, if_true, Host.Outcome.next.injEq] at h
        exact .inr (.inl ⟨w, ts, rfl, rfl, h.symm⟩)
    | unit =>
      simp only [hts] at h
      rcases unitTurn_cases h with ⟨hq, ht⟩ | ⟨hr, hb, he⟩
      · exact .inr (.inr (.inr (.inr (.inl ⟨ts, .inr rfl, hq, ht⟩))))
      · exact .inr (.inr (.inr (.inr (.inr ⟨ts, .inr rfl, hr, hb, he⟩))))
    | rst level =>
      simp only [hts, Host.Outcome.next.injEq] at h
      exact .inl ⟨level, ts, rfl, h.symm⟩

end Sys2Proof.Machine
end

