-- ==== Sys2Proof/Tests/Slice0.lean ====
section
/-! SUPPORT. Tests against the spec's own words, vectors and tables, and a witness for the hypotheses of every statement
of Certificates/Slice0/Obligations.lean that has some. -/

namespace Sys2Proof.Tests

open Sys2Proof.Machine

/-! ### Helper states -/

/-- The state after a next state; the reset state after anything else. -/
def after (o : Host.Outcome State Fault Refusal) : State :=
  match o with
  | .next t => t
  | .fault _ => State.reset
  | .refused _ => State.reset

/-- The unit busy with a command, everything else as after reset. -/
def pending (c : Byte) : State := { State.reset with cmd := c, pendCmd := c, busy := true }

/-- A text from its characters. -/
def text (cs : List Char) : Text := Vector.ofFn (fun i : Fin 26 => BitVec.ofNat 8 ((cs.getD i.val ' ').toNat))

/-- The DECODE vectors' start: BIN = 11 ×16 and a text of 26 bytes (95_test_vectors 2.3). -/
def decoding (p : Params) (cs : List Char) : State :=
  { pending 0x03#8 with params := p, bin := Vector.replicate 16 0x11#8, txt := text cs, txtLen := 26#16 }

/-- A PACK about to commit. -/
def packed (t : BitVec 64) (e : Vector Byte 10) : State := { pending 0x01#8 with tsIn := t, entBuf := e, entCnt := 10, entTotal := 10 }

/-- An accepted PACK whose source offers ten bytes and one more. -/
def packing : State := { pending 0x01#8 with entPort := [0, 1, 2, 3, 4, 5, 6, 7, 8, 9, 10] }

/-! ### Well-formedness: each check refuses an ill-formed term -/

theorem test_wf_refuses_illegal_listed :
    (Instr.illegal 0x00#8).wf = false ∧ (Instr.illegal 0x01#8).wf = false ∧ (Instr.illegal 0x02#8).wf = false ∧
    (Instr.illegal 0x03#8).wf = false := by decide

theorem test_wf_accepts_lowest_illegal : (Instr.illegal 0x04#8).wf = true := by decide

/-! ### Decoding: words written out bit by bit from 30_encoding R80 and R82 -/

theorem test_decode_hrd : decodeBus 0b0_01000001_00000000#17 = .hrd 0x41#8 := by decide

/-- WDATA of an HRD is ignored (R80). -/
theorem test_decode_hrd_ignores_wdata : decodeBus 0b0_01000001_11111111#17 = .hrd 0x41#8 := by decide

theorem test_decode_hwr : decodeBus 0b1_00110111_10000001#17 = .hwr 0x37#8 0x81#8 := by decide

theorem test_decode_nop : decodeCmd 0b00000000#8 = .nop := by decide

theorem test_decode_pack : decodeCmd 0b00000001#8 = .pack := by decide

theorem test_decode_encode : decodeCmd 0b00000010#8 = .encode := by decide

theorem test_decode_decode : decodeCmd 0b00000011#8 = .decode := by decide

/-- One word of each of the six ILLEGAL rows, and the last code. -/
theorem test_decode_illegal :
    decodeCmd 0b00000100#8 = .illegal 0x04#8 ∧ decodeCmd 0b00001000#8 = .illegal 0x08#8 ∧
    decodeCmd 0b00010000#8 = .illegal 0x10#8 ∧ decodeCmd 0b00100000#8 = .illegal 0x20#8 ∧
    decodeCmd 0b01000000#8 = .illegal 0x40#8 ∧ decodeCmd 0b10000000#8 = .illegal 0x80#8 ∧
    decodeCmd 0b11111111#8 = .illegal 0xFF#8 := by decide

/-- A row's bits reach the decoder through the table's numbering. -/
theorem test_table_words :
    decodeTableWord 24 0x14001 = some (.hwr 0x40#8 0x01#8) ∧ decodeTableWord 24 0x04100 = some (.hrd 0x41#8) ∧
    decodeTableWord 8 0x03 = some .decode ∧ decodeTableWord 24 0x20000 = none := by decide

/-- The encoder writes the words that program P1 of 95_test_vectors lists. -/
theorem test_encode_words :
    encode (.hwr 0x37#8 0x81#8) = .bus 0x13781#17 ∧ encode (.hrd 0x41#8) = .bus 0x04100#17 ∧
    encode .encode = .cmd 0x02#8 := by decide

/-! ### HRD and HWR (95_test_vectors 2.5, 2.6) -/

/-- H-1 and R-1: reserved addresses, STATUS and ERR_POS right after reset. -/
theorem test_hrd_after_reset :
    (after (exec (.hrd 0x2C#8) State.reset)).rdLog = [0x00#8] ∧ (after (exec (.hrd 0xFF#8) State.reset)).rdLog = [0x00#8] ∧
    (after (exec (.hrd 0x41#8) State.reset)).rdLog = [0x00#8] ∧ (after (exec (.hrd 0x42#8) State.reset)).rdLog = [0xFF#8] := by
  decide

/-- H-4: CAPS of a build with P_LOWERCASE = 1, P_STRICT_SYM0 = 0. -/
theorem test_hrd_caps :
    (after (exec (.hrd 0x43#8) { State.reset with params := { lowercase := true, strictSym0 := false } })).rdLog = [0x01#8] := by
  decide

/-- H-6: TXT_LEN is big-endian. -/
theorem test_hwr_txtLen : (after (exec (.hwr 0x2B#8 0x02#8) (after (exec (.hwr 0x2A#8 0x01#8) State.reset)))).txtLen = 0x0102#16 := by
  decide

/-- H-10: a write while busy leaves no trace. -/
theorem test_hwr_while_busy :
    (after (exec (.hwr 0x00#8 0x12#8) (pending 0x02#8))).bin[0] = 0x00#8 ∧ (after (exec (.hwr 0x40#8 0x03#8) (pending 0x02#8))).cmd = 0x02#8 := by
  decide

/-! ### NOP and ILLEGAL (H-7, H-8) -/

theorem test_nop_clears_error :
    statusByte (after (exec .nop { pending 0x00#8 with errCode := .invalidLength })) = 0x00#8 := by decide

theorem test_illegal_status :
    statusByte (after (exec (.illegal 0x04#8) (pending 0x04#8))) = 0x0E#8 ∧ (after (exec (.illegal 0x04#8) (pending 0x04#8))).cmd = 0x04#8 := by
  decide

/-! ### PACK (P-3, P-7) -/

theorem test_pack_truncates :
    (after (exec .pack (packed 0xFFFFFFFFFFFFFFFF#64 #v[0, 1, 2, 3, 4, 5, 6, 7, 8, 9]))).bin =
      #v[0xFF, 0xFF, 0xFF, 0xFF, 0xFF, 0xFF, 0x00, 0x01, 0x02, 0x03, 0x04, 0x05, 0x06, 0x07, 0x08, 0x09] := by decide

theorem test_pack_status_while_pending :
    statusByte (after (exec (.hwr 0x40#8 0x01#8) State.reset)) = 0x01#8 ∧ readByte (after (exec (.hwr 0x40#8 0x01#8) State.reset)) 0x40#8 = 0x01#8 := by
  decide

/-! ### ENCODE (E-9, E-2) -/

theorem test_encode_mixed :
    (after (exec .encode { pending 0x02#8 with bin := #v[0, 1, 2, 3, 4, 5, 6, 7, 8, 9, 10, 11, 12, 13, 14, 15] })).txt =
      text "00041061050R3GG28A1C60T3GF".toList := by decide

theorem test_encode_ones :
    (after (exec .encode { pending 0x02#8 with bin := Vector.replicate 16 0xFF#8 })).txt = text "7ZZZZZZZZZZZZZZZZZZZZZZZZZ".toList := by
  decide

/-! ### DECODE (D-1, D-12) -/

theorem test_decode_valid_text :
    (after (exec .decode (decoding Params.default "0001C7STHC0G2081040G208104".toList))).bin =
      #v[0x00, 0x00, 0x58, 0x7C, 0xEA, 0x2C, 0x04, 0x04, 0x04, 0x04, 0x04, 0x04, 0x04, 0x04, 0x04, 0x04] := by decide

theorem test_decode_overflow_beats_later_sentinel :
    (after (exec .decode (decoding { lowercase := false, strictSym0 := true } "ZZZZZIZZZZZZZZZZZZZZZZZZZZ".toList))).errPos = 0x00#8 := by
  decide

/-! ### The agents -/

/-- A bus word placed right after reset is the first thing to run. -/
theorem test_step_runs_placed_word : (after (step (State.reset.withFetchWord 24 0x10F5A))).bin[15] = 0x5A#8 := by decide

/-- A command placed right after reset commits in the next step (E-1). -/
theorem test_step_runs_placed_command : (after (step (State.reset.withFetchWord 8 0x02))).txtLen = 26#16 := by decide

/-- The commit falls between two reads of STATUS (R71). -/
theorem test_commit_between_reads :
    (after (Sys2Proof.core.run 3 { pending 0x00#8 with turns := [.host 0x04100#17, .unit, .host 0x04100#17] })).rdLog = [0x01#8, 0x00#8] := by
  decide

/-- R-2: reset during a PACK that has taken bytes. -/
theorem test_reset_abandons_pack :
    (after (step { packed 0x1#64 (Vector.replicate 10 0x01#8) with turns := [.rst true] })).busy = false ∧
    (after (step { packed 0x1#64 (Vector.replicate 10 0x01#8) with turns := [.rst true] })).entTotal = 0 := by decide

/-- R241: an HRD while rst = 1 returns 0x00, whatever stands there. -/
theorem test_hrd_during_reset :
    (after (step { State.reset with rst := true, turns := [.host 0x04200#17] })).rdLog = [0x00#8] := by decide

/-! ### Witnesses: a state and operands that meet each statement's hypotheses together -/

theorem witness_DecodeOfEncodeIsSame : (Instr.illegal 0x04#8).wf = true ∧ (Instr.hwr 0xFF#8 0x00#8).wf = true := by decide

theorem witness_WeSelectsTransaction : (0x0FFFF#17).getLsbD 16 = false ∧ (0x10000#17).getLsbD 16 = true := by decide

theorem witness_DecRomInvertsEncRom :
    10 ≤ (31#5).toNat ∧ (∀ s : Symbol, 0x4C#8 ≠ encRom s) ∧ (∀ s : Symbol, 10 ≤ s.toNat → true = true → 0x4C#8 ≠ encRom s + 0x20#8) := by
  decide

theorem witness_EncRomStrictlyIncreasing : (9#5).toNat < (10#5).toNat := by decide

/-- Each clause at the ends of its range of addresses. -/
theorem witness_HrdReturnsMappedByte :
    ((0x041FF#17).getLsbD 16 = false ∧ (0x041FF#17).extractLsb' 8 8 = 0x41#8) ∧
    (0x00#8).toNat = (0 : Fin 16).val ∧ (0x0F#8).toNat = (15 : Fin 16).val ∧
    (0x10#8).toNat = 0x10 + (0 : Fin 26).val ∧ (0x29#8).toNat = 0x10 + (25 : Fin 26).val ∧
    (0x2A#8).toNat = 0x2A ∧ (0x2B#8).toNat = 0x2B ∧
    (0x2C ≤ (0x2C#8).toNat ∧ (0x2C#8).toNat ≤ 0x2F) ∧ (0x2C ≤ (0x2F#8).toNat ∧ (0x2F#8).toNat ≤ 0x2F) ∧
    (0x30#8).toNat = 0x30 + (0 : Fin 8).val ∧ (0x37#8).toNat = 0x30 + (7 : Fin 8).val ∧
    (0x38#8).toNat = 0x38 + (0 : Fin 8).val ∧ (0x3F#8).toNat = 0x38 + (7 : Fin 8).val ∧
    (0x40#8).toNat = 0x40 ∧ (0x41#8).toNat = 0x41 ∧ (0x42#8).toNat = 0x42 ∧ (0x43#8).toNat = 0x43 ∧
    0x44 ≤ (0x44#8).toNat ∧ 0x44 ≤ (0xFF#8).toNat := by decide

theorem witness_HwrWritesOneDataByte :
    State.reset.busy = false ∧ (0x0F#8).toNat = (15 : Fin 16).val ∧ (0x29#8).toNat = 0x10 + (25 : Fin 26).val ∧
    (0x2A#8).toNat = 0x2A ∧ (0x2B#8).toNat = 0x2B ∧ (0x37#8).toNat = 0x30 + (7 : Fin 8).val ∧ (6 : Fin 8) ≠ 7 := by decide

theorem witness_HwrFrameThroughReads :
    State.reset.busy = false ∧ (0x2B#8).toNat ≤ 0x2B ∧ (0x30 ≤ (0x37#8).toNat ∧ (0x37#8).toNat ≤ 0x37) ∧
    ((0x00#8) ≠ 0x2B#8 ∧ 5 < (0x2B#8).toNat) ∧ ((0x3E#8) ≠ 0x05#8 ∧ (0x3E#8).toNat ≠ 0x3A + (0x05#8).toNat) ∧
    ((0x05#8).toNat ≤ 5 ∧ (0x3F#8).toNat = 0x3A + (0x05#8).toNat) := by decide

theorem witness_HwrToCmdAccepts : State.reset.busy = false := by decide

theorem witness_HwrReadOnlyOrReservedIgnored :
    (0x38 ≤ (0x38#8).toNat ∧ (0x38#8).toNat ≤ 0x3F) ∧ (0x38 ≤ (0x3F#8).toNat ∧ (0x3F#8).toNat ≤ 0x3F) ∧
    (0x41#8).toNat = 0x41 ∧ (0x42#8).toNat = 0x42 ∧ (0x43#8).toNat = 0x43 ∧
    (0x2C ≤ (0x2C#8).toNat ∧ (0x2F#8).toNat ≤ 0x2F) ∧ 0x44 ≤ (0x44#8).toNat := by decide

theorem witness_HwrWhileBusyIgnored : (pending 0x02#8).busy = true := by decide

theorem witness_WrtsWritesTsIn :
    let s : State := { State.reset with turns := (Pseudo.wrts 0x0102030405060708#64).map Turn.host ++ [.unit] }
    s.rst = false ∧ s.busy = false ∧ s.turns = (Pseudo.wrts 0x0102030405060708#64).map Turn.host ++ [.unit] := by decide

theorem witness_NopClearsError : (pending 0x00#8).busy = true := by decide

theorem witness_IllegalCodeCommits : 4 ≤ (0x04#8).toNat ∧ (pending 0x04#8).busy = true := by decide

theorem witness_IdleUnitRunsNoCommand : State.reset.busy = false := by decide

theorem witness_PackCommits :
    ((packed 0x1#64 (Vector.replicate 10 0x05#8)).busy = true ∧ (packed 0x1#64 (Vector.replicate 10 0x05#8)).entCnt.val = 10) ∧
    ((pending 0x01#8).busy = true ∧ (pending 0x01#8).entPort = [] ∧ (pending 0x01#8).entCnt.val < 10) := by decide

theorem witness_PackTakesOfferedByte :
    packing.busy = true ∧ packing.entPort = 0x00#8 :: [1, 2, 3, 4, 5, 6, 7, 8, 9, 10] ∧ packing.entCnt.val < 10 := by decide

theorem witness_ByteTakenWhenValidAndReady :
    unitMovesNext packing ∧ (entReady packing = true ∧ entValid packing = true) ∧
    unitMovesNext (pending 0x01#8) ∧ ¬(entReady (pending 0x01#8) = true ∧ entValid (pending 0x01#8) = true) :=
  ⟨.inl rfl, by decide, .inl rfl, by decide⟩

theorem witness_TsOutAfterPack :
    (packed 0xFFFF000000000001#64 (Vector.replicate 10 0x05#8)).busy = true ∧
    (packed 0xFFFF000000000001#64 (Vector.replicate 10 0x05#8)).entCnt.val = 10 := by decide

/-- L1-6 of 95_test_vectors. -/
theorem witness_PackKeepsTimestampOrder :
    let s : State := packed 1469918176385#64 (Vector.replicate 10 0x00#8)
    let t : State := packed 1469918176386#64 (Vector.replicate 10 0x00#8)
    s.busy = true ∧ t.busy = true ∧ s.entCnt.val = 10 ∧ t.entCnt.val = 10 ∧ s.tsIn.toNat % 2 ^ 48 < t.tsIn.toNat % 2 ^ 48 := by decide

theorem witness_PackConsumesTenBytes :
    packing.rst = false ∧ packing.busy = true ∧ packing.pendCmd = 0x01#8 ∧ packing.entCnt = 0 ∧ packing.turns = [] ∧
    packing.entPort = (#v[0, 1, 2, 3, 4, 5, 6, 7, 8, 9] : Vector Byte 10).toList ++ [10] := by decide

theorem witness_PackUnderEveryInterleaving :
    PackProgress packing packing ∧ noResetNext packing ∧ step packing = .next (after (step packing)) := by
  refine ⟨⟨by decide, by decide, by decide, by decide, by decide⟩, fun l ts h => (by cases h), rfl⟩

theorem witness_EncodeCommits : (pending 0x02#8).busy = true := by decide

theorem witness_FirstCharacterIsOctal : { pending 0x02#8 with bin := Vector.replicate 16 0xFF#8 }.busy = true := by decide

theorem witness_EncodeKeepsOrder :
    (pending 0x02#8).busy = true ∧ { pending 0x02#8 with bin := Vector.replicate 16 0x01#8 }.busy = true ∧
    bytesLt (pending 0x02#8).bin { pending 0x02#8 with bin := Vector.replicate 16 0x01#8 }.bin :=
  ⟨rfl, rfl, 0, fun j hj => absurd hj (Nat.not_lt_zero _), by decide⟩

theorem witness_DecodeChecksLength :
    (pending 0x03#8).busy = true ∧ (pending 0x03#8).txtLen.toNat ≠ 26 ∧
    { pending 0x03#8 with txtLen := 0xFFFF#16 }.txtLen.toNat ≠ 26 := by decide

/-- L1-4 of 95_test_vectors: the letter O stands at index 13. -/
theorem witness_DecodeReportsLowestBadIndex :
    let s := decoding Params.default "0001C7STHC0G2O81040G208104".toList
    s.busy = true ∧ s.txtLen.toNat = 26 ∧ ¬goodAt s.params s.txt 13 ∧ (∀ j : Fin 26, j < 13 → goodAt s.params s.txt j) := by
  unfold goodAt
  decide

theorem witness_DecodeAssemblesValue :
    let s := decoding { lowercase := true, strictSym0 := true } "01aryz6s410000000000000000".toList
    s.busy = true ∧ s.txtLen.toNat = 26 ∧ ∀ i : Fin 26, goodAt s.params s.txt i := by
  unfold goodAt
  decide

/-- D-2, D-3 and D-11 of 95_test_vectors. -/
theorem witness_SymbolZeroOverflow :
    (let s := decoding Params.default "ZZZZZZZZZZZZZZZZZZZZZZZZZZ".toList
     s.busy = true ∧ s.txtLen.toNat = 26 ∧ s.params.strictSym0 = false ∧
       ∀ i : Fin 26, decRom s.params.lowercase s.txt[i.val] ≠ 0xFF#8) ∧
    (let s := decoding { lowercase := false, strictSym0 := true } "8ZZZZZZZZZZZZZZZZZZZZZZZZZ".toList
     s.busy = true ∧ s.txtLen.toNat = 26 ∧ s.params.strictSym0 = true ∧ 8 ≤ (decRom s.params.lowercase s.txt[0]).toNat) ∧
    (let s := decoding { lowercase := false, strictSym0 := true } "IZZZZZZZZZZZZZZZZZZZZZZZZZ".toList
     s.busy = true ∧ s.txtLen.toNat = 26 ∧ decRom s.params.lowercase s.txt[0] = 0xFF#8) := by decide

theorem witness_DecodeHasNoPartialSuccess :
    (pending 0x03#8).busy = true ∧ (after (exec .decode (pending 0x03#8))).errCode ≠ .none ∧
    (after (exec .decode (decoding Params.default "0001C7STHC0G2081040G208104".toList))).errCode = .none := by decide

theorem witness_DecodeDependsOnTextOnly :
    let s := decoding Params.default "0001C7STHC0G2081040G208104".toList
    let t : State := { s with bin := Vector.replicate 16 0x22#8, tsIn := 5#64 }
    s.busy = true ∧ t.busy = true ∧ s.txtLen = t.txtLen ∧ s.txt = t.txt ∧ s.params = t.params := by decide

theorem witness_EncodeThenDecodeKeepsBin :
    let s : State := { pending 0x02#8 with bin := Vector.replicate 16 0xFF#8, turns := [.unit, .host 0x14003#17, .unit, .unit] }
    s.rst = false ∧ s.busy = true ∧ s.pendCmd = 0x02#8 ∧ s.turns = .unit :: .host 0x14003#17 :: .unit :: [.unit] := by decide

theorem witness_DecodeThenEncodeNormalisesText :
    let s : State := { decoding { lowercase := true, strictSym0 := false } "Zaryz6s4100000000000000000".toList with
      turns := [.unit, .host 0x14002#17, .unit] }
    s.rst = false ∧ s.busy = true ∧ s.pendCmd = 0x03#8 ∧ s.txtLen.toNat = 26 ∧ (∀ i : Fin 26, goodAt s.params s.txt i) ∧
    s.turns = .unit :: .host 0x14002#17 :: .unit :: [] := by
  unfold goodAt
  decide

theorem witness_TsOutViewsBin :
    (0x38#8).toNat = 0x38 + (0 : Fin 8).val ∧ (0x3F#8).toNat = 0x38 + (7 : Fin 8).val ∧
    (0x38 ≤ (0x39#8).toNat ∧ (0x39#8).toNat ≤ 0x39) ∧ (0x3A#8).toNat = 0x3A + (0 : Fin 6).val ∧
    (0x3F#8).toNat = 0x3A + (5 : Fin 6).val := by decide

theorem witness_TsOutAfterDecode :
    let s := decoding Params.default "ZZZZZZZZZZZZZZZZZZZZZZZZZZ".toList
    s.busy = true ∧ s.txtLen.toNat = 26 ∧ ∀ i : Fin 26, goodAt s.params s.txt i := by
  unfold goodAt
  decide

theorem witness_ErrorChangesStatusOnly :
    (pending 0x7F#8).busy = true ∧ exec (decodeCmd 0x7F#8) (pending 0x7F#8) = .next (after (exec (decodeCmd 0x7F#8) (pending 0x7F#8))) ∧
    (after (exec (decodeCmd 0x7F#8) (pending 0x7F#8))).busy = false ∧
    (after (exec (decodeCmd 0x7F#8) (pending 0x7F#8))).errCode ≠ .none :=
  ⟨by decide, rfl, by decide, by decide⟩

/-- Codes 2, 3 and 4, where the clauses meet, and the ends of the view. -/
theorem witness_WhichCommandsFail :
    (exec (decodeCmd 0x02#8) (pending 0x02#8) = .next (after (exec (decodeCmd 0x02#8) (pending 0x02#8))) ∧
      (after (exec (decodeCmd 0x02#8) (pending 0x02#8))).busy = false ∧ (0x02#8).toNat ≤ 2) ∧
    (exec (decodeCmd 0x03#8) (pending 0x03#8) = .next (after (exec (decodeCmd 0x03#8) (pending 0x03#8))) ∧
      (after (exec (decodeCmd 0x03#8) (pending 0x03#8))).busy = false ∧ (0x03#8).toNat = 3) ∧
    (exec (decodeCmd 0x04#8) (pending 0x04#8) = .next (after (exec (decodeCmd 0x04#8) (pending 0x04#8))) ∧
      (after (exec (decodeCmd 0x04#8) (pending 0x04#8))).busy = false ∧ 4 ≤ (0x04#8).toNat) ∧
    ((pending 0x02#8).busy = true ∧ (pending 0x03#8).busy = true ∧ (pending 0x04#8).busy = true) ∧
    (0x38 ≤ (0x38#8).toNat ∧ (0x38#8).toNat ≤ 0x3F) ∧ (0x38 ≤ (0x3F#8).toNat ∧ (0x3F#8).toNat ≤ 0x3F) :=
  ⟨⟨rfl, by decide, by decide⟩, ⟨rfl, by decide, by decide⟩, ⟨rfl, by decide, by decide⟩, by decide, by decide, by decide⟩

theorem witness_ErrorsAreNotSticky :
    (pending 0x00#8).busy = true ∧ exec (decodeCmd 0x00#8) (pending 0x00#8) = .next (after (exec (decodeCmd 0x00#8) (pending 0x00#8))) ∧
    (after (exec (decodeCmd 0x00#8) (pending 0x00#8))).busy = false :=
  ⟨by decide, rfl, by decide⟩

theorem witness_StepRunsHostTransaction :
    let s : State := { State.reset with turns := [.host 0x04100#17] }
    s.rst = false ∧ s.turns = .host 0x04100#17 :: [] ∧ decodeBus 0x04100#17 = .hrd 0x41#8 := by decide

theorem witness_StepRunsPendingCommand :
    ((pending 0x02#8).rst = false ∧ (pending 0x02#8).busy = true ∧ decodeCmd (pending 0x02#8).pendCmd = .encode ∧
      (pending 0x02#8).turns = []) ∧
    { pending 0x02#8 with turns := [.unit] }.turns = .unit :: [] ∧
    (State.reset.busy = false ∧ State.reset.turns = []) ∧ { State.reset with turns := [.unit] }.turns = .unit :: [] := by decide

theorem witness_StepRunsPlacedWord :
    (decodeTableWord 8 0xFF = some (.illegal 0xFF#8) ∧ 8 ≤ 8) ∧
    (decodeTableWord 24 0x1FFFF = some (.hwr 0xFF#8 0xFF#8) ∧ 8 < 24) ∧
    (decodeTableWord 9 0x000FF = some (.hrd 0x00#8) ∧ 8 < 9) := by decide

theorem witness_NothingStopsButAHang :
    (let s : State := { pending 0x01#8 with entCnt := 8, entPort := [0x05#8] }
     s.rst = false ∧ s.busy = true ∧ s.pendCmd = 0x01#8 ∧ s.entCnt.val + s.entPort.length < 10 ∧ noResetNext s ∧
       step s = .next (after (step s))) ∧
    (let s : State := { pending 0x01#8 with entCnt := 9 }
     s.rst = false ∧ s.busy = true ∧ s.pendCmd = 0x01#8 ∧ s.entCnt.val < 10 ∧ s.entPort = [] ∧ s.turns = []) :=
  ⟨⟨rfl, rfl, rfl, by decide, fun l ts h => (by cases h), rfl⟩, by decide⟩

theorem witness_EnabledCommitIsTaken :
    (unitMovesNext (pending 0x02#8) ∧ commitEnabled (pending 0x02#8) = true) ∧
    commitEnabled (packed 0x1#64 (Vector.replicate 10 0x05#8)) = true ∧ commitEnabled packing = false :=
  ⟨⟨.inl rfl, by decide⟩, by decide, by decide⟩

theorem witness_NoResultBeforeCommit :
    packing.busy = true ∧ noResetNext packing ∧ step packing = .next (after (step packing)) ∧ (after (step packing)).busy = true :=
  ⟨by decide, fun l ts h => (by cases h), rfl, by decide⟩

theorem witness_FourEventsWriteBin :
    let s : State := { State.reset with turns := [.host (busWord true 0x0F#8 0x01#8)] }
    step s = .next (after (step s)) ∧ (after (step s)).bin ≠ s.bin :=
  ⟨rfl, by decide⟩

theorem witness_StatusChangesOnlyByLifecycle :
    (let s := pending 0x04#8
     step s = .next (after (step s)) ∧ (after (step s)).errCode ≠ s.errCode ∧ s.busy = true ∧ (after (step s)).busy = false) ∧
    (let s : State := { State.reset with turns := [.host (busWord true 0x40#8 0xFF#8)] }
     step s = .next (after (step s)) ∧ s.busy = false ∧ (after (step s)).busy = true) :=
  ⟨⟨rfl, by decide, by decide, by decide⟩, ⟨rfl, by decide, by decide⟩⟩

theorem witness_OnlyPackTakesEntropy :
    step packing = .next (after (step packing)) ∧ (after (step packing)).entTotal ≠ packing.entTotal ∧ noResetNext packing :=
  ⟨rfl, by decide, fun l ts h => (by cases h)⟩

theorem witness_IdleRegistersChangeOnlyByHwr :
    State.reset.busy = false ∧ noResetNext State.reset ∧
    (∀ (a d : Byte) (ts : List Turn), State.reset.turns ≠ .host (busWord true a d) :: ts) ∧
    step State.reset = .next (after (step State.reset)) :=
  ⟨by decide, fun l ts h => (by cases h), fun a d ts h => (by cases h), rfl⟩

theorem witness_CapsNeverChanges :
    let s : State := { State.reset with turns := [.rst true], params := { lowercase := true, strictSym0 := true } }
    step s = .next (after (step s)) := rfl

/-- Two states that differ in ent_buf above ent_cnt = 1, in front of an entropy step. -/
theorem witness_UnreadEntropyNeverMatters :
    let s : State := { packing with entCnt := 1 }
    let t : State := { s with entBuf := s.entBuf.set 9 0x77#8 }
    sameButUnreadEntropy s t ∧ step s = .next (after (step s)) ∧ s ≠ t :=
  ⟨⟨rfl, by decide⟩, rfl, by decide⟩

theorem witness_ResetSetsEveryRegister : { packing with turns := [.rst true] }.turns = .rst true :: [] := by decide

theorem witness_RstHoldsTheBlock :
    State.reset.assertReset.rst = true ∧ State.reset.assertReset.turns = [] ∧
    { State.reset.assertReset with turns := [.unit] }.turns = .unit :: [] ∧
    { State.reset.assertReset with turns := [.host (busWord true 0x40#8 0x01#8)] }.turns = .host (busWord true 0x40#8 0x01#8) :: [] ∧
    { State.reset.assertReset with turns := [.host (busWord false 0x42#8 0x00#8)] }.turns = .host (busWord false 0x42#8 0x00#8) :: [] ∧
    { State.reset.assertReset with turns := [.rst false] }.turns = .rst false :: [] := by decide

/-- A state no run from reset need reach: a finished PACK beside an earlier character error. -/
theorem witness_StepKeepsInvariant :
    let s : State := { packed 0x1#64 (Vector.replicate 10 0x05#8) with errCode := .invalidCharacter, errPos := 25#8 }
    Inv s ∧ step s = .next (after (step s)) := by
  refine ⟨⟨by decide, by decide, by decide, by decide, by decide, fun h => by cases h⟩, rfl⟩

end Sys2Proof.Tests
end

section
/-! PROOFS. The state family: which steps write BIN (R23), and that nothing writes the build parameters (R33). -/

namespace Sys2Proof.Machine

/-! ### What the bus, the reset input and the address map leave unchanged -/

@[simp] theorem resetInput_true (s : State) : s.resetInput true = s.assertReset := rfl

@[simp] theorem resetInput_false (s : State) : s.resetInput false = s.setRst false := rfl

@[simp] theorem resetInput_params (s : State) (level : Bool) : (s.resetInput level).params = s.params := by
  cases level <;> rfl

@[simp] theorem hostDuringReset_bin (w : BusWord) (s : State) : (hostDuringReset w s).bin = s.bin := by
  unfold hostDuringReset
  split <;> rfl

@[simp] theorem hostDuringReset_params (w : BusWord) (s : State) : (hostDuringReset w s).params = s.params := by
  unfold hostDuringReset
  split <;> rfl

@[simp] theorem writeLoc_params (s : State) (d : Byte) (l : Loc) : (writeLoc s d l).params = s.params := by
  cases l <;> rfl

theorem writeByte_params (s : State) (a d : Byte) : (writeByte s a d).params = s.params :=
  writeLoc_params s d (locOf a)

/-- Only a write at one of BIN's own locations changes BIN (R24). -/
theorem writeLoc_bin_of_ne (s : State) (d : Byte) (l : Loc) (h : ∀ k, l ≠ .bin k) : (writeLoc s d l).bin = s.bin := by
  cases l with
  | bin k => exact absurd rfl (h k)
  | _ => rfl

/-- An HWR that changes BIN is addressed to 0x00–0x0F (R61). -/
theorem addr_le_of_writeByte_bin_ne {s : State} {a d : Byte} (h : (writeByte s a d).bin ≠ s.bin) : a.toNat ≤ 0x0F := by
  by_contra ha
  refine h (writeLoc_bin_of_ne s d (locOf a) fun k hk => ?_)
  have := locOf_eq_bin hk
  omega

@[simp] theorem readByte_caps (s : State) : readByte s 0x43#8 = capsByte s := by simp [readByte, readLoc]

@[simp] theorem writeByte_caps (s : State) (d : Byte) : writeByte s 0x43#8 d = s := by simp [writeByte, writeLoc]

/-! ### What a pending command leaves unchanged -/

/-- A DECODE whose commit changes BIN ends without an error (R180). -/
theorem errCode_of_commit_decodeResult_bin_ne {s : State} {p : Params} {len : BitVec 16} {x : Text}
    (h : (s.commit (decodeResult p len x)).bin ≠ s.bin) : (s.commit (decodeResult p len x)).errCode = .none := by
  obtain he | ⟨i, he⟩ | he := decodeResult_cases p len x
  · exact absurd (by simp [he]) h
  · exact absurd (by simp [he]) h
  · simp [he]

/-- Of the pending commands only the commits of PACK and of a DECODE without an error write BIN (R23). -/
theorem exec_decodeCmd_bin_ne {s t : State} {c : Byte} (hb : s.busy = true) (h : exec (decodeCmd c) s = .next t)
    (hne : t.bin ≠ s.bin) :
    (c = 0x01#8 ∧ s.entCnt.val = 10 ∧ t.busy = false) ∨ (c = 0x03#8 ∧ t.busy = false ∧ t.errCode = .none) := by
  obtain ⟨-, -, -, rfl⟩ | ⟨-, hc, e, rest, -, rfl⟩ | ⟨hc, h10, rfl⟩ | ⟨-, rfl⟩ | ⟨-, rfl⟩ | ⟨hc, rfl⟩ | ⟨-, rfl⟩ :=
    exec_decodeCmd_cases hb h
  · exact absurd rfl hne
  · exact absurd (by simp) hne
  · exact .inl ⟨hc, h10, commit_busy _ _⟩
  · exact absurd (by simp [Writes.nothing]) hne
  · exact absurd (by simp [encodeResult]) hne
  · exact .inr ⟨hc, commit_busy _ _, errCode_of_commit_decodeResult_bin_ne hne⟩
  · exact absurd (by simp) hne

/-- No pending command writes the build parameters (R33). -/
theorem exec_decodeCmd_params {s t : State} {c : Byte} (hb : s.busy = true) (h : exec (decodeCmd c) s = .next t) :
    t.params = s.params := by
  obtain ⟨-, -, -, rfl⟩ | ⟨-, hc, e, rest, -, rfl⟩ | ⟨-, -, rfl⟩ | ⟨-, rfl⟩ | ⟨-, rfl⟩ | ⟨-, rfl⟩ | ⟨-, rfl⟩ :=
    exec_decodeCmd_cases hb h
  all_goals simp

/-- The turn of a unit step, as `step_cases` names it, is the unit's. -/
theorem unitMovesNext_of_turns {s : State} {ts : List Turn} (h : s.turns = [] ∧ ts = [] ∨ s.turns = .unit :: ts) :
    unitMovesNext s :=
  h.imp And.left fun h => ⟨ts, h⟩

/-- The build parameters are fixed (R33; log entry 2). -/
theorem step_params {s t : State} (h : step s = .next t) : t.params = s.params := by
  obtain ⟨level, ts, -, rfl⟩ | ⟨w, ts, -, -, rfl⟩ | ⟨w, ts, -, -, -, rfl⟩ | ⟨w, ts, -, -, -, rfl⟩ | ⟨ts, -, -, rfl⟩ |
    ⟨ts, -, -, hb, he⟩ := step_cases h
  · simp
  · simp
  · simp
  · split
    · rfl
    · exact writeByte_params _ _ _
  · rfl
  · exact exec_decodeCmd_params (s := s.setTurns ts) hb he

end Sys2Proof.Machine

namespace Sys2Proof.Proofs

open Sys2Proof.Machine

/-- Settles O49: of the kinds of step, only an HWR while idle, a pending command and a reset can write BIN, and for each
of the first two its own lemma says when. -/
theorem fourEventsWriteBin : Obligations.FourEventsWriteBin := by
  intro s t h hne
  obtain ⟨level, ts, hts, rfl⟩ | ⟨w, ts, -, -, rfl⟩ | ⟨w, ts, -, -, -, rfl⟩ | ⟨w, ts, hts, -, hwe, rfl⟩ | ⟨ts, -, -, rfl⟩ |
    ⟨ts, hts, -, hb, he⟩ := step_cases h
  · cases level with
    | true => exact .inr (.inr (.inr ⟨ts, hts⟩))
    | false => exact absurd (by simp) hne
  · exact absurd (by simp) hne
  · exact absurd (by simp) hne
  · cases hb : s.busy with
    | true => exact absurd (by simp [hb]) hne
    | false =>
      have hw : s.turns = .host (busWord true (busAddr w) (busData w)) :: ts := by rw [hts, ← hwe, busWord_fields]
      simp only [hb, Bool.false_eq_true, if_false] at hne
      exact .inl ⟨_, _, ts, hw, rfl, addr_le_of_writeByte_bin_ne (s := s.setTurns ts) hne⟩
  · exact absurd rfl hne
  · have hu := unitMovesNext_of_turns hts
    obtain ⟨hc, h10, ht⟩ | ⟨hc, ht, hn⟩ := exec_decodeCmd_bin_ne (s := s.setTurns ts) hb he hne
    · exact .inr (.inl ⟨hu, hb, hc, h10, ht⟩)
    · exact .inr (.inr (.inl ⟨hu, hb, hc, ht, hn⟩))

/-- Settles O53: CAPS is a function of the build parameters alone, and no step writes them. -/
theorem capsNeverChanges : Obligations.CapsNeverChanges := by
  refine ⟨readByte_caps, fun s d => ?_, fun s t h => ?_⟩
  · simp [exec, execHwr]
  · have hp := step_params h
    exact ⟨hp, by simp [capsByte, hp]⟩

end Sys2Proof.Proofs

end

section
/-! PROOFS. The encoding family: the bus word's WE (R81), and the bit maps between the 16 bytes and the 26 symbols
(R86, R87). Both maps read one big-endian sequence of digits at fields of another width, so a row of either table is
the digits' parts that make up its field, appended. -/

namespace Sys2Proof

/-! ### WE (R81) -/

theorem decodeBus_of_busWe_eq_false {w : BusWord} (h : busWe w = false) : decodeBus w = .hrd (busAddr w) := by
  simp [decodeBus, h]

theorem decodeBus_of_busWe_eq_true {w : BusWord} (h : busWe w = true) :
    decodeBus w = .hwr (busAddr w) (busData w) := by
  simp [decodeBus, h]

end Sys2Proof

namespace Sys2Proof.Machine

/-! ### Fields of a big-endian sequence -/

/-- A field inside digit `k` of the joined digits is that part of the digit. -/
theorem extractLsb'_joinBE {w n : Nat} (f : Fin n → BitVec w) (k : Fin n) (lo len : Nat) (h : lo + len ≤ w) :
    (joinBE f).extractLsb' (w * (n - 1 - k.val) + lo) len = (f k).extractLsb' lo len := by
  rw [← digitBE_joinBE f k, digitBE]
  ext i hi
  simp [Nat.add_assoc, show lo + i < w by omega]

/-- Two adjacent fields, the higher one at `q`, make one field. -/
theorem extractLsb'_eq_append {m a b p q : Nat} {v : BitVec m} {x : BitVec a} {y : BitVec b}
    (hx : v.extractLsb' q a = x) (hy : v.extractLsb' p b = y) (hq : q = p + b := by decide) :
    v.extractLsb' p (a + b) = x ++ y := by
  rw [← hx, ← hy, BitVec.extractLsb'_append_extractLsb'_eq_extractLsb' hq]

/-! ### The symbols of an identifier value (R86) -/

/-- The two pad bits above the value do not change what a symbol's field reads. -/
theorem symbolOf_eq_extractLsb' (b : Identifier) (i : Fin 26) :
    symbolOf b i = (numeric b).extractLsb' (125 - 5 * i.val) 5 := by
  rw [symbolOf, digitBE, BitVec.extractLsb'_setWidth_of_le (by omega)]
  congr 1
  omega

/-- A field inside byte `k` of the numeric reading is that part of the byte. -/
theorem extractLsb'_numeric (b : Identifier) (k : Fin 16) (lo len : Nat) (h : lo + len ≤ 8) :
    (numeric b).extractLsb' (8 * (16 - 1 - k.val) + lo) len = b[k.val].extractLsb' lo len :=
  extractLsb'_joinBE (fun k : Fin 16 => b[k.val]) k lo len h

/-- The bits above the numeric reading are the pad's zeros. -/
theorem extractLsb'_numeric_pad (b : Identifier) : (numeric b).extractLsb' 128 2 = 0#2 := by
  ext i hi
  simp

/-! ### The bytes of an assembled value (R87) -/

/-- Byte `k` is a field of W': the two bits that V' drops are above every byte. -/
theorem getElem_assemble (y : Fin 26 → Symbol) (k : Nat) (hk : k < 16) :
    (assemble y)[k] = (joinBE y).extractLsb' (8 * (16 - 1 - k)) 8 := by
  rw [assemble, getElem_ofNumeric, digitBE, BitVec.extractLsb'_setWidth_of_le (by omega)]

/-! ### A DECODE of good text (R180) -/

/-- The symbol of a character that DECODE accepts is its whole DecROM word (R90). -/
theorem setWidth_charSymbol {p : Params} {t : Text} {i : Fin 26} (h : goodAt p t i) :
    (charSymbol p t[i.val]).setWidth 8 = decRom p.lowercase t[i.val] := by
  obtain ⟨hne, -⟩ := h
  have hlt := (decRom_cases p.lowercase t[i.val]).resolve_left hne
  apply BitVec.eq_of_toNat_eq
  simp only [charSymbol, romSymbol, BitVec.toNat_setWidth, BitVec.extractLsb'_toNat, Nat.shiftRight_zero]
  omega

/-- With TXT_LEN = 26 and 26 good characters DECODE writes BIN alone. -/
theorem decodeResult_of_good {p : Params} {len : BitVec 16} {t : Text} (hlen : len.toNat = 26)
    (hg : ∀ i, goodAt p t i) :
    decodeResult p len t = .done { bin := some (valueOf p t), txt := none, txtLen := none } := by
  obtain rfl : len = 26#16 := BitVec.eq_of_toNat_eq hlen
  simp [decodeResult, (firstBad_eq_none_iff p t).mpr hg]

/-- DECODE of good text commits its value and no error, and changes nothing else. -/
theorem exec_decode_of_good {s : State} (hb : s.busy = true) (hlen : s.txtLen.toNat = 26)
    (hg : ∀ i, goodAt s.params s.txt i) :
    exec .decode s =
      .next { s with bin := valueOf s.params s.txt, errCode := .none, errPos := 0xFF#8, busy := false } := by
  rw [exec, execDecode, unitCommit_of_busy hb, decodeResult_of_good hlen hg]
  rfl

end Sys2Proof.Machine

namespace Sys2Proof.Proofs

open Sys2Proof.Machine

/-- Settles O3, by the two values of WE. -/
theorem weSelectsTransaction : Obligations.WeSelectsTransaction := by
  intro w
  refine ⟨decodeBus_of_busWe_eq_false, decodeBus_of_busWe_eq_true, ?_⟩
  cases h : busWe w with
  | false => rw [decodeBus_of_busWe_eq_false h]; rfl
  | true => rw [decodeBus_of_busWe_eq_true h]; rfl

/-- Settles O26: a symbol's field lies inside one byte or runs from one byte into the next, and symbol 0 begins in the
pad. Each row names its bytes with the lowest bit and the number of bits taken from each. -/
theorem symbolBitsOfBytes : Obligations.SymbolBitsOfBytes := by
  intro b
  refine ⟨fun i => ?_, fun i => ?_, ?_⟩
  · rw [symbolOf_eq_extractLsb', BitVec.extractLsb'_setWidth_of_le (by omega)]
  · rw [symbolOf_eq_extractLsb', BitVec.setWidth_ushiftRight_eq_extractLsb, Nat.mul_sub]
  · have part (k lo len) (h : lo + len ≤ 8 := by decide) := extractLsb'_numeric b k lo len h
    simp only [symbolOf_eq_extractLsb']
    exact ⟨
      extractLsb'_eq_append (extractLsb'_numeric_pad b) (part 0 5 3),
      part 0 0 5,
      part 1 3 5,
      extractLsb'_eq_append (part 1 0 3) (part 2 6 2),
      part 2 1 5,
      extractLsb'_eq_append (part 2 0 1) (part 3 4 4),
      extractLsb'_eq_append (part 3 0 4) (part 4 7 1),
      part 4 2 5,
      extractLsb'_eq_append (part 4 0 2) (part 5 5 3),
      part 5 0 5,
      part 6 3 5,
      extractLsb'_eq_append (part 6 0 3) (part 7 6 2),
      part 7 1 5,
      extractLsb'_eq_append (part 7 0 1) (part 8 4 4),
      extractLsb'_eq_append (part 8 0 4) (part 9 7 1),
      part 9 2 5,
      extractLsb'_eq_append (part 9 0 2) (part 10 5 3),
      part 10 0 5,
      part 11 3 5,
      extractLsb'_eq_append (part 11 0 3) (part 12 6 2),
      part 12 1 5,
      extractLsb'_eq_append (part 12 0 1) (part 13 4 4),
      extractLsb'_eq_append (part 13 0 4) (part 14 7 1),
      part 14 2 5,
      extractLsb'_eq_append (part 14 0 2) (part 15 5 3),
      part 15 0 5⟩

/-- Settles O32: DECODE commits the assembled value of the text's symbols, and each byte's field of W' is put together
from the symbols it meets. Each row names them, with the lowest bit and the number of bits where it takes a part. -/
theorem decodeAssemblesValue : Obligations.DecodeAssemblesValue := by
  intro s hb hlen hg
  let y : Fin 26 → Symbol := fun i => charSymbol s.params s.txt[i.val]
  have part (k lo len) (h : lo + len ≤ 5 := by decide) := extractLsb'_joinBE y k lo len h
  have whole := digitBE_joinBE y
  refine ⟨assemble y, y, exec_decode_of_good hb hlen hg, fun i => setWidth_charSymbol (hg i), ?_⟩
  simp only [getElem_assemble]
  exact ⟨
    extractLsb'_eq_append (part 0 0 3) (whole 1),
    extractLsb'_eq_append (whole 2) (part 3 2 3),
    extractLsb'_eq_append (extractLsb'_eq_append (part 3 0 2) (whole 4)) (part 5 4 1),
    extractLsb'_eq_append (part 5 0 4) (part 6 1 4),
    extractLsb'_eq_append (extractLsb'_eq_append (part 6 0 1) (whole 7)) (part 8 3 2),
    extractLsb'_eq_append (part 8 0 3) (whole 9),
    extractLsb'_eq_append (whole 10) (part 11 2 3),
    extractLsb'_eq_append (extractLsb'_eq_append (part 11 0 2) (whole 12)) (part 13 4 1),
    extractLsb'_eq_append (part 13 0 4) (part 14 1 4),
    extractLsb'_eq_append (extractLsb'_eq_append (part 14 0 1) (whole 15)) (part 16 3 2),
    extractLsb'_eq_append (part 16 0 3) (whole 17),
    extractLsb'_eq_append (whole 18) (part 19 2 3),
    extractLsb'_eq_append (extractLsb'_eq_append (part 19 0 2) (whole 20)) (part 21 4 1),
    extractLsb'_eq_append (part 21 0 4) (part 22 1 4),
    extractLsb'_eq_append (extractLsb'_eq_append (part 22 0 1) (whole 23)) (part 24 3 2),
    extractLsb'_eq_append (part 24 0 3) (whole 25)⟩

end Sys2Proof.Proofs

end

section
/-! PROOFS. The host bus family: what HRD returns (R120), what HWR does (R121-R124, R127), and the two control commands
NOP (R130) and ILLEGAL (R131). -/

namespace Sys2Proof

/-- Every byte of at least 4 is an ILLEGAL code (R82). -/
theorem decodeCmd_of_four_le {c : Byte} (h : 4 ≤ c.toNat) : decodeCmd c = .illegal c := by
  have ne {n : Byte} (hn : n.toNat < 4) : c ≠ n := by
    rintro rfl
    omega
  rw [decodeCmd, if_neg (ne (by decide)), if_neg (ne (by decide)), if_neg (ne (by decide)), if_neg (ne (by decide))]

end Sys2Proof

namespace Sys2Proof.Machine

/-! ### The bytes of TXT_LEN, TS_IN and TS_OUT -/

/-- Byte `j` of a 64-bit register is bits 63-8j : 56-8j. -/
theorem digitBE_eight (v : BitVec 64) (j : Fin 8) : digitBE 8 8 v j = v.extractLsb' (56 - 8 * j.val) 8 := by
  rw [digitBE, Nat.mul_sub]

/-- Two joined bytes are the one appended to the other. -/
theorem joinBE_two (f : Fin 2 → Byte) : joinBE f = f 0 ++ f 1 :=
  congrArg (· ++ f 1) (BitVec.zero_width_append 0#0 (f 0))

/-- A 16-bit register with its high byte replaced. -/
theorem setDigitBE_two_zero (v : BitVec (8 * 2)) (d : Byte) : setDigitBE 8 2 v 0 d = d ++ v.extractLsb' 0 8 :=
  joinBE_two _

/-- A 16-bit register with its low byte replaced. -/
theorem setDigitBE_two_one (v : BitVec (8 * 2)) (d : Byte) : setDigitBE 8 2 v 1 d = v.extractLsb' 8 8 ++ d :=
  joinBE_two _

/-! ### The fields of STATUS (R30) and CAPS (R33) -/

theorem errBit_eq_true_iff (s : State) : errBit s = true ↔ s.errCode ≠ .none := by
  unfold errBit
  cases s.errCode <;> decide

theorem statusByte_zeros (s : State) : (statusByte s).extractLsb' 4 4 = 0#4 :=
  (BitVec.extractLsb'_append_eq_of_le (by decide)).trans <|
    (BitVec.extractLsb'_append_eq_of_le (by decide)).trans BitVec.extractLsb'_append_eq_left

theorem statusByte_errCode (s : State) : (statusByte s).extractLsb' 2 2 = s.errCode.bits :=
  (BitVec.extractLsb'_append_eq_of_le (by decide)).trans <|
    (BitVec.extractLsb'_append_eq_of_le (by decide)).trans BitVec.extractLsb'_append_eq_right

theorem statusByte_err (s : State) : (statusByte s).getLsbD 1 = errBit s :=
  BitVec.getLsbD_append.trans (BitVec.getLsbD_append.trans (by simp))

theorem statusByte_busy (s : State) : (statusByte s).getLsbD 0 = s.busy :=
  BitVec.getLsbD_append.trans (by simp)

theorem capsByte_zeros (s : State) : (capsByte s).extractLsb' 2 6 = 0#6 :=
  (BitVec.extractLsb'_append_eq_of_le (by decide)).trans BitVec.extractLsb'_append_eq_left

theorem capsByte_strictSym0 (s : State) : (capsByte s).getLsbD 1 = s.params.strictSym0 :=
  BitVec.getLsbD_append.trans (BitVec.getLsbD_append.trans (by simp))

theorem capsByte_lowercase (s : State) : (capsByte s).getLsbD 0 = s.params.lowercase :=
  BitVec.getLsbD_append.trans (by simp)

/-! ### The byte an HRD returns at each address (R120) -/

section

variable (s : State) {a : Byte}

theorem readByte_of_locOf {l : Loc} (h : locOf a = l) : readByte s a = readLoc s l := congrArg (readLoc s) h

theorem readByte_tsIn (j : Fin 8) (h : a.toNat = 0x30 + j.val) :
    readByte s a = s.tsIn.extractLsb' (56 - 8 * j.val) 8 :=
  (readByte_of_locOf s (locOf_tsIn j h)).trans (digitBE_eight s.tsIn j)

theorem readByte_tsOut (j : Fin 8) (h : a.toNat = 0x38 + j.val) :
    readByte s a = (tsOut s.bin).extractLsb' (56 - 8 * j.val) 8 :=
  (readByte_of_locOf s (locOf_tsOut j h)).trans (digitBE_eight (tsOut s.bin) j)

@[simp] theorem readByte_cmd : readByte s 0x40#8 = s.cmd := readByte_of_locOf s locOf_cmd

@[simp] theorem readByte_status : readByte s 0x41#8 = statusByte s := readByte_of_locOf s locOf_status

@[simp] theorem readByte_errPos : readByte s 0x42#8 = s.errPos := readByte_of_locOf s locOf_errPos

theorem readByte_reserved (h : 0x2C ≤ a.toNat ∧ a.toNat ≤ 0x2F ∨ 0x44 ≤ a.toNat) : readByte s a = 0x00#8 :=
  readByte_of_locOf s (locOf_reserved h)

end

/-! ### What an HWR does at each address (R121) -/

section

variable (s : State) {a : Byte} (d : Byte)

theorem writeByte_of_locOf {l : Loc} (h : locOf a = l) : writeByte s a d = writeLoc s d l := congrArg (writeLoc s d) h

/-- A write to a read-only or reserved address does nothing (R123). -/
theorem writeByte_of_ignored (h : 0x38 ≤ a.toNat ∧ a.toNat ≤ 0x3F ∨ a.toNat = 0x41 ∨ a.toNat = 0x42 ∨ a.toNat = 0x43 ∨
      0x2C ≤ a.toNat ∧ a.toNat ≤ 0x2F ∨ 0x44 ≤ a.toNat) : writeByte s a d = s := by
  obtain ⟨hl, hu⟩ | h | h | h | h := h
  · exact writeByte_of_locOf s d (locOf_tsOut ⟨a.toNat - 0x38, by omega⟩ (by simp only; omega))
  · obtain rfl : a = 0x41#8 := BitVec.eq_of_toNat_eq h
    exact writeByte_of_locOf s d locOf_status
  · obtain rfl : a = 0x42#8 := BitVec.eq_of_toNat_eq h
    exact writeByte_of_locOf s d locOf_errPos
  · obtain rfl : a = 0x43#8 := BitVec.eq_of_toNat_eq h
    exact writeByte_caps s d
  · exact writeByte_of_locOf s d (locOf_reserved h)

end

/-! ### The two transactions -/

theorem exec_hrd (s : State) (a : Byte) : exec (.hrd a) s = .next (s.logRead (readByte s a)) := rfl

theorem exec_hwr_of_busy {s : State} (h : s.busy = true) (a d : Byte) : exec (.hwr a d) s = .next s := by
  simp [exec, execHwr, h]

theorem exec_hwr_of_idle {s : State} (h : s.busy = false) (a d : Byte) :
    exec (.hwr a d) s = .next (writeByte s a d) := by
  simp [exec, execHwr, h]

/-- While idle, an HWR does what a write to the location at its address does. -/
theorem exec_hwr_of_locOf {s : State} {a : Byte} {l : Loc} (hb : s.busy = false) (d : Byte) (h : locOf a = l) :
    exec (.hwr a d) s = .next (writeLoc s d l) := by
  rw [exec_hwr_of_idle hb, writeByte_of_locOf s d h]

end Sys2Proof.Machine

namespace Sys2Proof.Proofs

open Sys2Proof.Machine

/-- Settles O8: the byte returned is `readByte s a`, and the map gives each range its own lemma. -/
theorem hrdReturnsMappedByte : Obligations.HrdReturnsMappedByte := by
  intro s a
  refine ⟨fun w hwe ha => ha ▸ decodeBus_of_busWe_eq_false hwe, readByte s a, exec_hrd s a,
    fun k h => readByte_of_locOf s (locOf_bin k h), fun i h => readByte_of_locOf s (locOf_txt i h),
    fun h => readByte_of_locOf s (locOf_txtLen 0 h), fun h => readByte_of_locOf s (locOf_txtLen 1 h),
    fun hl hu => readByte_reserved s (.inl ⟨hl, hu⟩), readByte_tsIn s, readByte_tsOut s, ?cmd, ?status, ?errPos, ?caps,
    fun h => readByte_reserved s (.inr h)⟩
  case cmd =>
    intro h
    obtain rfl : a = 0x40#8 := BitVec.eq_of_toNat_eq h
    rw [readByte_cmd]
  case status =>
    intro h
    obtain rfl : a = 0x41#8 := BitVec.eq_of_toNat_eq h
    rw [readByte_status, statusByte_errCode, statusByte_err]
    refine ⟨statusByte_zeros s, ?_, errBit_eq_true_iff s, statusByte_busy s⟩
    cases s.errCode <;> rfl
  case errPos =>
    intro h
    obtain rfl : a = 0x42#8 := BitVec.eq_of_toNat_eq h
    rw [readByte_errPos]
  case caps =>
    intro h
    obtain rfl : a = 0x43#8 := BitVec.eq_of_toNat_eq h
    rw [readByte_caps]
    exact ⟨capsByte_zeros s, capsByte_strictSym0 s, capsByte_lowercase s⟩

/-- Settles O9, one data register at a time; the two bytes of TXT_LEN are the halves of the word. -/
theorem hwrWritesOneDataByte : Obligations.HwrWritesOneDataByte := by
  intro s a d hb
  refine ⟨fun k h => exec_hwr_of_locOf hb d (locOf_bin k h), fun i h => exec_hwr_of_locOf hb d (locOf_txt i h),
    fun h => ?_, fun h => ?_, fun j h => ?_⟩
  · rw [exec_hwr_of_locOf hb d (locOf_txtLen 0 h), ← setDigitBE_two_zero]
    rfl
  · rw [exec_hwr_of_locOf hb d (locOf_txtLen 1 h), ← setDigitBE_two_one]
    rfl
  · refine ⟨setDigitBE 8 8 s.tsIn j d, exec_hwr_of_locOf hb d (locOf_tsIn j h), ?_, fun i hi => ?_⟩
    · rw [← digitBE_eight]
      exact digitBE_setDigitBE_same (w := 8) (n := 8) s.tsIn j d
    · rw [← digitBE_eight, ← digitBE_eight]
      exact digitBE_setDigitBE_ne (w := 8) (n := 8) s.tsIn hi d

/-- Settles O11: the write at CMD's location is the acceptance, and ent_buf holds what that leaves in it. -/
theorem hwrToCmdAccepts : Obligations.HwrToCmdAccepts :=
  fun s d hb => ⟨(s.accept d).entBuf, exec_hwr_of_locOf hb d locOf_cmd⟩

/-- Settles O12: while busy no HWR has an effect, and while idle none does at these addresses. -/
theorem hwrReadOnlyOrReservedIgnored : Obligations.HwrReadOnlyOrReservedIgnored := by
  intro s a d h
  cases hb : s.busy with
  | true => exact exec_hwr_of_busy hb a d
  | false => rw [exec_hwr_of_idle hb, writeByte_of_ignored s d h]

/-- Settles O13: the busy branch of an HWR never looks at the address. -/
theorem hwrWhileBusyIgnored : Obligations.HwrWhileBusyIgnored := fun _ a d hb => exec_hwr_of_busy hb a d

/-- Settles O15: a NOP is the commit of no writes. -/
theorem nopClearsError : Obligations.NopClearsError := by
  refine ⟨rfl, fun s hb => ?_⟩
  rw [exec, execNop, unitCommit_of_busy hb, commit_done]
  rfl

/-- Settles O16: an ILLEGAL is the commit of a raise, which writes no register. -/
theorem illegalCodeCommits : Obligations.IllegalCodeCommits := by
  intro s c hc hb
  refine ⟨decodeCmd_of_four_le hc, ?_⟩
  rw [exec, execIllegal, unitCommit_of_busy hb, commit_raise]
  rfl

end Sys2Proof.Proofs

end

section
/-! PROOFS. The PACK family: the bytes of the packed value (R140, R142), the commit once ten bytes are taken, and the
wait while the source offers none (R133, R140). -/

namespace Sys2Proof.Machine

/-! ### The bytes of a packed value (R140) -/

/-- BIN[0..5] of a packed value is TS_IN[47:0], big-endian. -/
theorem getElem_packValue_timestamp (v : BitVec 64) (e : Vector Byte 10) (k : Fin 6) :
    (packValue v e)[k.val] = v.extractLsb' (40 - 8 * k.val) 8 := by
  rw [← digitBE_ts48]
  simp [packValue]

/-- BIN[6..15] of a packed value is the entropy bytes in order. -/
theorem getElem_packValue_entropy (v : BitVec 64) (e : Vector Byte 10) (k : Fin 10) :
    (packValue v e)[6 + k.val] = e[k.val] := by
  simp [packValue]

/-! ### The unit's step on a pending PACK -/

/-- With ten bytes taken PACK commits the packed value and no error, and changes nothing else. -/
theorem exec_pack_of_ten {s : State} (hb : s.busy = true) (h10 : s.entCnt.val = 10) :
    exec .pack s =
      .next { s with bin := packValue s.tsIn s.entBuf, errCode := .none, errPos := 0xFF#8, busy := false } := by
  have hc : ¬ s.entCnt.val < 10 := by omega
  rw [exec, execPack, if_pos hb, dif_neg hc, packResult, commit_done]
  rfl

/-- With fewer than ten bytes taken and none offered PACK waits. -/
theorem exec_pack_of_no_byte {s : State} (hb : s.busy = true) (hp : s.entPort = []) (hc : s.entCnt.val < 10) :
    exec .pack s = .next s := by
  rw [exec, execPack, if_pos hb, dif_pos hc]
  simp only [hp]

end Sys2Proof.Machine

namespace Sys2Proof.Proofs

open Sys2Proof.Machine

/-- Settles O18: the value committed is `packValue`, whose bytes have their own lemmas; the wait keeps the whole state. -/
theorem packCommits : Obligations.PackCommits :=
  ⟨rfl, fun s hb h10 => ⟨packValue s.tsIn s.entBuf, exec_pack_of_ten hb h10, getElem_packValue_timestamp s.tsIn s.entBuf,
    getElem_packValue_entropy s.tsIn s.entBuf⟩, fun _ => exec_pack_of_no_byte⟩

end Sys2Proof.Proofs

end

section
/-! PROOFS. The ENCODE family: the commit of the text form (R160), and its first character (R162). The symbols' bits are
those of `symbolBitsOfBytes` (R86). -/

namespace Sys2Proof.Machine

/-- The first eight entries of EncROM are the digits `0` to `7` (R88). -/
theorem toNat_encRom_octal (x : BitVec 3) : (encRom (0#2 ++ x)).toNat = 0x30 + x.toNat := by
  revert x
  decide

/-- ENCODE commits the text form of BIN, its length and no error, and changes nothing else (R160). -/
theorem exec_encode_of_busy {s : State} (hb : s.busy = true) :
    exec .encode s = .next { s with
      txt := textOf s.bin, txtLen := 26#16, errCode := .none, errPos := 0xFF#8, busy := false } := by
  rw [exec, execEncode, unitCommit_of_busy hb, encodeResult, commit_done]
  simp only [State.applyWrites, State.finish, Option.getD_some, Option.getD_none]

end Sys2Proof.Machine

namespace Sys2Proof.Proofs

open Sys2Proof.Machine

/-- Settles O25: the text committed is `textOf s.bin`, and each symbol of it is the shifted numeric reading's low bits. -/
theorem encodeCommits : Obligations.EncodeCommits := by
  refine ⟨rfl, fun s hb => ⟨textOf s.bin, exec_encode_of_busy hb, fun i => ?_⟩⟩
  obtain ⟨-, symbolOf_shift, -⟩ := symbolBitsOfBytes s.bin
  rw [getElem_textOf, symbolOf_shift]

/-- Settles O27: symbol 0 is the pad's two zeros above three bits of BIN[0], so it indexes one of EncROM's first eight
entries. -/
theorem firstCharacterIsOctal : Obligations.FirstCharacterIsOctal := by
  intro s hb
  obtain ⟨-, -, symbolOf_zero, -⟩ := symbolBitsOfBytes s.bin
  have hchar : (textOf s.bin)[0] = encRom (0#2 ++ s.bin[0].extractLsb' 5 3) :=
    (getElem_textOf s.bin 0 (by decide)).trans (congrArg encRom symbolOf_zero)
  have hcode := toNat_encRom_octal (s.bin[0].extractLsb' 5 3)
  have hlt := (s.bin[0].extractLsb' 5 3).isLt
  refine ⟨_, exec_encode_of_busy hb, hchar, ?_⟩
  simp only [hchar]
  omega

end Sys2Proof.Proofs

end

section
/-! PROOFS. The DECODE family: the length check (R181), the lowest bad index (R182), the two high bits of symbol 0
(R183), and that an error leaves BIN as it was (R184). A DECODE without an error is `decodeAssemblesValue` (R87). -/

namespace Sys2Proof.Machine

/-! ### The character check (R182, R183) -/

/-- The scan from the left stops at the lowest bad index. -/
theorem firstBad_eq_some_iff (p : Params) (t : Text) (i : Fin 26) :
    firstBad p t = some i ↔ ¬ goodAt p t i ∧ ∀ j, j < i → goodAt p t j := by
  rw [firstBad, List.find?_eq_some_iff_getElem]
  simp only [List.getElem_finRange, ← isBad_eq_false_iff, Bool.not_eq_false, Bool.not_eq_true']
  refine and_congr_right fun _ => ⟨?_, fun h => ⟨i.val, by simp, rfl, fun j hj => h _ hj⟩⟩
  rintro ⟨n, hn, rfl, h⟩ j hj
  exact h j.val hj

/-- At position 0 a character is bad by its symbol, when P_STRICT_SYM0 = 1, or by the sentinel (R183). -/
theorem not_goodAt_zero {p : Params} {t : Text}
    (h : p.strictSym0 = true ∧ 8 ≤ (decRom p.lowercase t[0]).toNat ∨ decRom p.lowercase t[0] = 0xFF#8) :
    ¬ goodAt p t 0 := by
  rintro ⟨hne, hle⟩
  obtain ⟨hs, h8⟩ | hff := h
  · exact absurd (hle rfl hs) (Nat.not_le.mpr h8)
  · exact hne hff

/-- With P_STRICT_SYM0 = 0 only the sentinel makes a character bad (R183). -/
theorem goodAt_of_lenient {p : Params} {t : Text} {i : Fin 26} (hs : p.strictSym0 = false)
    (h : decRom p.lowercase t[i.val] ≠ 0xFF#8) : goodAt p t i :=
  ⟨h, fun _ ht => absurd ht (by simp [hs])⟩

/-! ### A DECODE that ends with an error -/

/-- DECODE on the unit's turn is one commit (R126, R180). -/
theorem exec_decode_of_busy {s : State} (hb : s.busy = true) :
    exec .decode s = .next (s.commit (decodeResult s.params s.txtLen s.txt)) := by
  rw [exec, execDecode, unitCommit_of_busy hb]

/-- The length is checked before any character (R181). -/
theorem decodeResult_of_length_ne (p : Params) {len : BitVec 16} (t : Text) (h : len.toNat ≠ 26) :
    decodeResult p len t = .raise .invalidLength 0xFF#8 :=
  if_pos fun e => h (congrArg BitVec.toNat e)

/-- With TXT_LEN = 26 the lowest bad index is the one reported (R182). -/
theorem decodeResult_of_lowest_bad {p : Params} {len : BitVec 16} {t : Text} {i : Fin 26} (hlen : len.toNat = 26)
    (hi : ¬ goodAt p t i) (hlow : ∀ j, j < i → goodAt p t j) :
    decodeResult p len t = .raise .invalidCharacter (BitVec.ofNat 8 i.val) := by
  obtain rfl : len = 26#16 := BitVec.eq_of_toNat_eq hlen
  simp [decodeResult, (firstBad_eq_some_iff p t i).mpr ⟨hi, hlow⟩]

/-- DECODE of a text with a bad character commits INVALID_CHARACTER at the lowest bad index, and changes nothing else. -/
theorem exec_decode_of_lowest_bad {s : State} {i : Fin 26} (hb : s.busy = true) (hlen : s.txtLen.toNat = 26)
    (hi : ¬ goodAt s.params s.txt i) (hlow : ∀ j, j < i → goodAt s.params s.txt j) :
    exec .decode s =
      .next { s with errCode := .invalidCharacter, errPos := BitVec.ofNat 8 i.val, busy := false } := by
  rw [exec_decode_of_busy hb, decodeResult_of_lowest_bad hlen hi hlow, commit_raise]
  rfl

end Sys2Proof.Machine

namespace Sys2Proof.Proofs

open Sys2Proof.Machine

/-- Settles O31: the scan stops at the lowest bad index, and an index of 26 fits in ERR_POS. -/
theorem decodeReportsLowestBadIndex : Obligations.DecodeReportsLowestBadIndex := by
  intro s i hb hlen hi hlow
  refine ⟨BitVec.ofNat 8 i.val, ?_, exec_decode_of_lowest_bad hb hlen hi hlow⟩
  rw [BitVec.toNat_ofNat]
  omega

/-- Settles O33: when the build is not strict such a text is good at every position, and BIN[0] begins with the three low
bits of symbol 0 (R87); otherwise position 0 is bad, and no index is lower. -/
theorem symbolZeroOverflow : Obligations.SymbolZeroOverflow := by
  intro s hb hlen
  refine ⟨fun hs hrom => ?_, fun h => ?_⟩
  · obtain ⟨v, y, hexec, hsym, hv0, -⟩ := decodeAssemblesValue s hb hlen fun i => goodAt_of_lenient hs (hrom i)
    refine ⟨v, hexec, ?_⟩
    calc v[0].extractLsb' 5 3
        = (y 0).extractLsb' 0 3 := by rw [hv0, BitVec.extractLsb'_append_eq_left]
      _ = ((y 0).setWidth 8).extractLsb' 0 3 := (BitVec.extractLsb'_setWidth_of_le (by decide)).symm
      _ = (decRom s.params.lowercase s.txt[0]).extractLsb' 0 3 := by rw [hsym 0]; rfl
  · exact exec_decode_of_lowest_bad (i := 0) hb hlen (not_goodAt_zero h) fun j hj => absurd hj (Fin.not_lt_zero j)

/-- Settles O34: a DECODE comes to one of its two errors, which write no register, or to a write of BIN alone. -/
theorem decodeHasNoPartialSuccess : Obligations.DecodeHasNoPartialSuccess := by
  intro s hb
  refine ⟨_, exec_decode_of_busy hb, commit_busy _ _, ?_⟩
  obtain he | ⟨i, he⟩ | he := decodeResult_cases s.params s.txtLen s.txt
  · simp [he]
  · simp [he]
  · simp [he]

/-- Settles O30: the length check comes first, whatever the characters. -/
theorem decodeChecksLength : Obligations.DecodeChecksLength := by
  intro s hb hlen
  rw [exec_decode_of_busy hb, decodeResult_of_length_ne s.params s.txt hlen, commit_raise]
  rfl

end Sys2Proof.Proofs

end

section
/-! PROOFS. The TS_OUT family: the view as a number and as the bytes an HRD of 0x38–0x3F returns (R210). -/

namespace Sys2Proof.Machine

/-- Six joined bytes are the bytes appended in order. -/
theorem joinBE_six (f : Fin 6 → Byte) : joinBE f = ((((f 0 ++ f 1) ++ f 2) ++ f 3) ++ f 4) ++ f 5 :=
  congrArg (· ++ f 1 ++ f 2 ++ f 3 ++ f 4 ++ f 5) (BitVec.zero_width_append 0#0 (f 0))

/-- Zero-extending by 16 bits puts 16 zeros above the six bytes. -/
theorem tsOut_eq_zeros_append (b : Identifier) :
    tsOut b = 0x0000#16 ++ (((((b[0] ++ b[1]) ++ b[2]) ++ b[3]) ++ b[4]) ++ b[5]) := by
  rw [tsOut, BitVec.setWidth_eq_append (by decide), joinBE_six]
  rfl

/-- An HRD logs what stands at its address and changes nothing else. -/
theorem exec_hrd_of_readByte {s : State} {a d : Byte} (h : readByte s a = d) :
    exec (.hrd a) s = .next { s with rdLog := s.rdLog ++ [d] } :=
  h ▸ exec_hrd s a

end Sys2Proof.Machine

namespace Sys2Proof.Proofs

open Sys2Proof.Machine

/-- Settles O38: each HRD returns a byte of the view; bytes 0 and 1 of it are zero, and byte `k + 2` is BIN[k]. -/
theorem tsOutViewsBin : Obligations.TsOutViewsBin := by
  intro s
  refine ⟨tsOut_eq_zeros_append s.bin, fun a j ha => exec_hrd_of_readByte (readByte_tsOut s j ha), fun a hlo hhi => ?_,
    fun a k ha => ?_⟩
  · have hloc := locOf_tsOut (a := a) ⟨a.toNat - 0x38, by omega⟩ (by simp only; omega)
    have hzero := digitBE_tsOut_high s.bin ⟨a.toNat - 0x38, by omega⟩ (by simp only; omega)
    exact exec_hrd_of_readByte ((readByte_of_locOf s hloc).trans hzero)
  · have hloc := locOf_tsOut (a := a) ⟨k.val + 2, by omega⟩ (by simp only; omega)
    exact exec_hrd_of_readByte ((readByte_of_locOf s hloc).trans (digitBE_tsOut_low s.bin k))

end Sys2Proof.Proofs

end

section
/-! PROOFS. The error family: what a failing command writes (R221), which commands fail (R222), and that a commit does
not depend on the error registers it overwrites (R223). -/

namespace Sys2Proof.Machine

/-! ### What a commit does with the error registers (R126) -/

/-- A commit that ends with an error is a raise, so its staged writes are discarded. -/
theorem commit_of_errCode_ne_none {s : State} {r : CmdResult} (h : (s.commit r).errCode ≠ .none) :
    s.commit r = { s with errCode := (s.commit r).errCode, errPos := (s.commit r).errPos, busy := false } := by
  cases r with
  | done w => exact absurd rfl h
  | raise e p => rfl

/-- A commit overwrites whatever ERRCODE and ERR_POS held. -/
theorem commit_with_error (s : State) (r : CmdResult) (e : ErrCode) (p : Byte) :
    { s with errCode := e, errPos := p }.commit r = s.commit r := by
  cases r <;> rfl

theorem errCode_commit_decodeResult_ne_illegalCommand (s : State) (p : Params) (len : BitVec 16) (x : Text) :
    (s.commit (decodeResult p len x)).errCode ≠ .illegalCommand := by
  obtain he | ⟨i, he⟩ | he := decodeResult_cases p len x
  · simp [he]
  · simp [he]
  · simp [he]

/-! ### The unit's steps that end a command -/

section

variable {s t : State} {c : Byte} (hb : s.busy = true) (h : exec (decodeCmd c) s = .next t) (ht : t.busy = false)
include hb h ht

/-- A step of a pending command that clears BUSY is a commit: an entropy step and a wait of PACK keep BUSY (R133). -/
theorem exec_decodeCmd_commit_cases :
    (c = 0x01#8 ∧ s.entCnt.val = 10 ∧ t = s.commit (packResult s)) ∨
    (c = 0x00#8 ∧ t = s.commit (.done Writes.nothing)) ∨
    (c = 0x02#8 ∧ t = s.commit (encodeResult s)) ∨
    (c = 0x03#8 ∧ t = s.commit (decodeResult s.params s.txtLen s.txt)) ∨
    (4 ≤ c.toNat ∧ t = s.commit (.raise .illegalCommand 0xFF#8)) := by
  obtain ⟨-, -, -, rfl⟩ | ⟨-, hc, e, rest, -, rfl⟩ | hcommit := exec_decodeCmd_cases hb h
  · exact absurd ht (by simp [hb])
  · exact absurd ht (by simp [hb])
  · exact hcommit

theorem exec_decodeCmd_eq_commit : ∃ r, t = s.commit r := by
  obtain ⟨-, -, hr⟩ | ⟨-, hr⟩ | ⟨-, hr⟩ | ⟨-, hr⟩ | ⟨-, hr⟩ := exec_decodeCmd_commit_cases hb h ht
  all_goals exact ⟨_, hr⟩

end

/-! ### Reads -/

/-- No read changes the error registers (R69). -/
theorem exec_hrd_keeps_error (s : State) (a : Byte) :
    ∃ t, exec (.hrd a) s = .next t ∧ t.errCode = s.errCode ∧ t.errPos = s.errPos :=
  ⟨_, exec_hrd s a, State.logRead_errCode s _, State.logRead_errPos s _⟩

end Sys2Proof.Machine

namespace Sys2Proof.Proofs

open Sys2Proof.Machine

/-- Settles O40: the step is a commit, a commit with an error is a raise, and the state it leaves is idle, so the next HWR
to CMD is accepted. -/
theorem errorChangesStatusOnly : Obligations.ErrorChangesStatusOnly := by
  intro s t c hb h ht herr
  refine ⟨?_, fun d => ?_⟩
  · obtain ⟨r, rfl⟩ := exec_decodeCmd_eq_commit hb h ht
    exact commit_of_errCode_ne_none herr
  · obtain ⟨buf, haccept⟩ := hwrToCmdAccepts t d ht
    exact ⟨_, haccept, rfl, rfl⟩

/-- Settles O41: each command's result says which error it can raise; an HRD raises none at any address. -/
theorem whichCommandsFail : Obligations.WhichCommandsFail := by
  refine ⟨fun s t c hb h ht => ?_, fun s a _ _ => exec_hrd_keeps_error s a⟩
  obtain ⟨rfl, -, rfl⟩ | ⟨rfl, rfl⟩ | ⟨rfl, rfl⟩ | ⟨rfl, rfl⟩ | ⟨hc, rfl⟩ := exec_decodeCmd_commit_cases hb h ht
  · simp [packResult]
  · simp
  · simp [encodeResult]
  · simp [errCode_commit_decodeResult_ne_illegalCommand]
  · exact ⟨fun _ => by omega, fun _ => by omega, fun _ => rfl⟩

/-- Settles O42: the same command commits from both states, its result does not read the error registers, and the commit
overwrites them. -/
theorem errorsAreNotSticky : Obligations.ErrorsAreNotSticky := by
  refine ⟨fun s t c e p hb h ht => ?_, fun s => exec_hrd_keeps_error s 0x41#8⟩
  have hb' : { s with errCode := e, errPos := p }.busy = true := hb
  obtain ⟨rfl, h10, rfl⟩ | ⟨rfl, rfl⟩ | ⟨rfl, rfl⟩ | ⟨rfl, rfl⟩ | ⟨hc, rfl⟩ := exec_decodeCmd_commit_cases hb h ht
  all_goals rw [← commit_with_error s _ e p]
  · exact exec_pack_of_ten hb' h10
  · exact nopClearsError.2 _ hb'
  · exact exec_encode_of_busy hb'
  · exact exec_decode_of_busy hb'
  · rw [decodeCmd_of_four_le hc]
    exact (illegalCodeCommits _ c hc hb').2

end Sys2Proof.Proofs

end

section
/-! PROOFS. The words of the spec: decoding gives every encoded instruction back (R80–R84), what each command byte means
(R82), and the contents of the two ROMs (R85, R88–R92). -/

namespace Sys2Proof

/-! ### Decoding a bus word put together from its fields (R80, R81) -/

@[simp] theorem decodeBus_busWord_false (a d : Byte) : decodeBus (busWord false a d) = .hrd a := by
  rw [decodeBus_of_busWe_eq_false (busWe_busWord false a d), busAddr_busWord]

@[simp] theorem decodeBus_busWord_true (a d : Byte) : decodeBus (busWord true a d) = .hwr a d := by
  rw [decodeBus_of_busWe_eq_true (busWe_busWord true a d), busAddr_busWord, busData_busWord]

end Sys2Proof

namespace Sys2Proof.Machine

/-! ### DecROM against EncROM (R89) -/

/-- A character is bad, or the code of its symbol, or in a lowercase build the lowercase code of its letter. -/
theorem decRom_char_cases : ∀ (low : Bool) (c : Byte),
    decRom low c = 0xFF#8 ∨
    (c.toNat < 0x61 ∧ encRom (romSymbol (decRom low c)) = c) ∨
    (low = true ∧ 0x61 ≤ c.toNat ∧ 10 ≤ (romSymbol (decRom low c)).toNat ∧
      encRom (romSymbol (decRom low c)) = c - 0x20#8) := by
  decide

theorem decRom_encRom : ∀ (low : Bool) (x : Symbol), decRom low (encRom x) = x.setWidth 8 := by decide

theorem decRom_lowercase : ∀ x : Symbol, 10 ≤ x.toNat → decRom true (encRom x + 0x20#8) = x.setWidth 8 := by decide

/-- R92: EncROM is strictly increasing. -/
theorem encRom_lt : ∀ x y : Symbol, x.toNat < y.toNat → (encRom x).toNat < (encRom y).toNat := by decide

end Sys2Proof.Machine

namespace Sys2Proof.Proofs

open Sys2Proof.Machine

/-- Settles O2: the fields of the encoded word read back, and a well-formed ILLEGAL code is one that R82 does not list. -/
theorem decodeOfEncodeIsSame : Obligations.DecodeOfEncodeIsSame := by
  intro i hwf
  cases i with
  | hrd a => exact decodeBus_busWord_false a 0x00#8
  | hwr a d => exact decodeBus_busWord_true a d
  | nop => rfl
  | pack => rfl
  | encode => rfl
  | decode => rfl
  | illegal c => exact decodeCmd_of_four_le (of_decide_eq_true hwf)

/-- Settles O1: each word is a literal. -/
theorem wordsOfTheSpecDecode : Obligations.WordsOfTheSpecDecode := by
  unfold Obligations.WordsOfTheSpecDecode
  decide

/-- Settles O4: the four listed codes one by one, and every other code at once. -/
theorem commandByteHasOneMeaning : Obligations.CommandByteHasOneMeaning := by
  intro c
  by_cases h : 4 ≤ c.toNat
  · rw [decodeCmd_of_four_le h]
    simp [Instr.wf, h]
    omega
  · obtain h | h | h | h : c.toNat = 0 ∨ c.toNat = 1 ∨ c.toNat = 2 ∨ c.toNat = 3 := by omega
    · obtain rfl : c = 0x00#8 := BitVec.eq_of_toNat_eq h
      decide
    · obtain rfl : c = 0x01#8 := BitVec.eq_of_toNat_eq h
      decide
    · obtain rfl : c = 0x02#8 := BitVec.eq_of_toNat_eq h
      decide
    · obtain rfl : c = 0x03#8 := BitVec.eq_of_toNat_eq h
      decide

/-- Settles O5, entry by entry. -/
theorem encRomIsAlphabet : Obligations.EncRomIsAlphabet := by
  unfold Obligations.EncRomIsAlphabet
  decide

/-- Settles O6: a character that is no symbol's code is the sentinel by `decRom_char_cases`; the valid entries are
counted in each build. -/
theorem decRomInvertsEncRom : Obligations.DecRomInvertsEncRom := by
  intro low
  refine ⟨decRom_encRom low, ?lower, fun c hup hlow => ?_, decRom_cases low, ?count⟩
  case lower =>
    rintro rfl
    exact decRom_lowercase
  case count =>
    revert low
    decide
  obtain h | ⟨-, hc⟩ | ⟨hl, -, h10, hc⟩ := decRom_char_cases low c
  · exact h
  · exact absurd hc.symm (hup _)
  · exact absurd (by rw [hc, BitVec.sub_add_cancel]) (hlow _ h10 hl)

/-- Settles O7. -/
theorem encRomStrictlyIncreasing : Obligations.EncRomStrictlyIncreasing := encRom_lt

end Sys2Proof.Proofs

end

section
/-! PROOFS. One step, by whose turn it is: which instruction the turn runs (R132, R133), and that it always answers a next
state (R234). -/

namespace Sys2Proof.Machine

/-! ### Totality -/

theorem exec_total (i : Instr) (s : State) : ∃ t, exec i s = .next t := by
  cases i
  all_goals exact ⟨_, rfl⟩

theorem step_total (s : State) : ∃ t, step s = .next t := by
  unfold step
  cases fetch s with
  | run i s' => exact exec_total i s'
  | quiet s' => exact ⟨s', rfl⟩

/-! ### The step of each turn -/

section

variable {s : State} {ts : List Turn}

theorem setTurns_eq_self (h : s.turns = ts) : s.setTurns ts = s := by
  subst h
  rfl

/-- The turns left after the unit's turn, in the form in which `step_cases` names them. -/
theorem exists_turns_of_unitMovesNext (h : unitMovesNext s) :
    ∃ ts, s.turns = [] ∧ ts = [] ∨ s.turns = .unit :: ts := by
  obtain h | ⟨ts, h⟩ := h
  · exact ⟨[], .inl ⟨h, rfl⟩⟩
  · exact ⟨ts, .inr h⟩

/-- The unit's turn, listed or by default. -/
theorem fetch_of_unit (h : s.turns = [] ∧ ts = [] ∨ s.turns = .unit :: ts) : fetch s = unitTurn (s.setTurns ts) := by
  obtain ⟨h, rfl⟩ | h := h
  · rw [fetch, h, setTurns_eq_self h]
  · rw [fetch, h]

/-- The unit's turn runs the pending command (R133). -/
theorem step_unit_of_pending (h : s.turns = [] ∧ ts = [] ∨ s.turns = .unit :: ts) (hr : s.rst = false)
    (hb : s.busy = true) : step s = exec (decodeCmd s.pendCmd) (s.setTurns ts) := by
  rw [step, fetch_of_unit h]
  simp [unitTurn, hr, hb]

/-- The unit's turn does nothing while rst = 1 or nothing is pending (R241). -/
theorem step_unit_of_quiet (h : s.turns = [] ∧ ts = [] ∨ s.turns = .unit :: ts)
    (hq : s.rst = true ∨ s.busy = false) : step s = .next (s.setTurns ts) := by
  rw [step, fetch_of_unit h]
  obtain hr | hb := hq
  · simp [unitTurn, hr]
  · cases hr : s.rst <;> simp [unitTurn, hr, hb]

/-- The host's turn runs its transaction (R132). -/
theorem step_host {w : BusWord} (h : s.turns = .host w :: ts) (hr : s.rst = false) :
    step s = exec (decodeBus w) (s.setTurns ts) := by
  simp [step, fetch, h, hostTurn, hr]

/-- While rst = 1 the host's transaction is ignored (R241). -/
theorem step_host_of_rst {w : BusWord} (h : s.turns = .host w :: ts) (hr : s.rst = true) :
    step s = .next (hostDuringReset w (s.setTurns ts)) := by
  simp [step, fetch, h, hostTurn, hr]

/-- The reset input's turn sets its level (R241). -/
theorem step_rst {level : Bool} (h : s.turns = .rst level :: ts) :
    step s = .next ((s.setTurns ts).resetInput level) := by
  simp [step, fetch, h]

end

/-! ### Runs -/

@[simp] theorem run_zero (s : State) : Sys2Proof.core.run 0 s = .next s := rfl

/-- A run whose first step is known goes on from the state that step answers. -/
theorem run_succ_of_step {s t : State} (h : step s = .next t) (n : Nat) :
    Sys2Proof.core.run (n + 1) s = Sys2Proof.core.run n t := by
  simp [Host.Core.run, Sys2Proof.core, h]

/-- A run of two lengths is the second run from where the first one ends. -/
theorem run_add_of_run {s t : State} {m : Nat} (n : Nat) (h : Sys2Proof.core.run m s = .next t) :
    Sys2Proof.core.run (m + n) s = Sys2Proof.core.run n t := by
  induction m generalizing s with
  | zero =>
    cases h
    rw [Nat.zero_add]
  | succ m ih =>
    obtain ⟨s', hs⟩ := step_total s
    rw [run_succ_of_step hs] at h
    rw [Nat.add_right_comm, run_succ_of_step hs, ih h]

end Sys2Proof.Machine

end

section
/-! PROOFS. The unit's turn: nothing runs while idle (log entry 9), a pending PACK takes the byte that is offered (R133,
R144), and an enabled commit is taken (R126, R129). -/

namespace Sys2Proof.Machine

/-! ### PACK, one unit turn at a time -/

theorem exec_pack_of_idle {s : State} (hb : s.busy = false) : exec .pack s = .next s := by
  rw [exec, execPack, if_neg (by simp [hb])]

/-- PACK changes nothing while idle, or while it has fewer than ten bytes and none is offered (R133, R140). -/
theorem exec_pack_of_wait {s : State} (h : s.busy = false ∨ s.entCnt.val < 10 ∧ s.entPort = []) :
    exec .pack s = .next s := by
  obtain hb | hb := Bool.eq_false_or_eq_true s.busy
  · obtain hi | ⟨hc, hp⟩ := h
    · exact exec_pack_of_idle hi
    · exact exec_pack_of_no_byte hb hp hc
  · exact exec_pack_of_idle hb

/-- With fewer than ten bytes taken PACK takes the byte that is offered (R133). -/
theorem exec_pack_of_byte {s : State} {e : Byte} {rest : List Byte} (hb : s.busy = true) (hc : s.entCnt.val < 10)
    (hp : s.entPort = e :: rest) : exec .pack s = .next (s.takeEntropy hc e rest) := by
  rw [exec, execPack, if_pos hb, dif_pos hc]
  simp only [hp]

/-! ### The signals -/

/-- ent_ready is 1 exactly for a pending PACK with fewer than ten bytes (R144, R241). -/
theorem entReady_iff (s : State) :
    entReady s = true ↔ s.rst = false ∧ s.busy = true ∧ s.pendCmd = 0x01#8 ∧ s.entCnt.val < 10 := by
  simp [entReady, and_assoc]

/-- A commit is enabled for a pending command that is no PACK still taking bytes (R126, R241). -/
theorem commitEnabled_iff (s : State) :
    commitEnabled s = true ↔ s.rst = false ∧ s.busy = true ∧ (s.pendCmd ≠ 0x01#8 ∨ s.entCnt.val = 10) := by
  simp [commitEnabled, and_assoc]

/-- The byte offered is the head of the stream (R144). -/
theorem entValid_iff (s : State) : entValid s = true ↔ ∃ e rest, s.entPort = e :: rest := by
  cases hp : s.entPort <;> simp [entValid, hp]

end Sys2Proof.Machine

namespace Sys2Proof.Proofs

open Sys2Proof.Machine

/-- Settles O17: a commit and PACK's step both ask for BUSY = 1. -/
theorem idleUnitRunsNoCommand : Obligations.IdleUnitRunsNoCommand := by
  intro s c hb
  refine ⟨?_, exec_pack_of_idle hb, ?_, ?_, ?_⟩
  all_goals exact congrArg Host.Outcome.next (unitCommit_of_idle hb _)

/-- Settles O19: the step is `takeEntropy`, which sets one byte of ent_buf. -/
theorem packTakesOfferedByte : Obligations.PackTakesOfferedByte := by
  intro s e rest hb hp hc
  refine ⟨s.entBuf.set s.entCnt.val e, _, exec_pack_of_byte hb hc hp, rfl, fun k => ?_⟩
  rw [Vector.getElem_set]
  simp only [eq_comm]

end Sys2Proof.Proofs

end

section
/-! PROOFS. A pending PACK under every interleaving (R125, R127, R141): what each step does to `PackProgress`. -/

namespace Sys2Proof.Machine

/-- The commit of a PACK writes BIN and the status (R140). -/
theorem commit_packResult (s : State) :
    s.commit (packResult s) =
      { s with bin := packValue s.tsIn s.entBuf, errCode := .none, errPos := 0xFF#8, busy := false } := rfl

section

variable {s t : State} (h : PackProgress s t)
include h

theorem packProgress_setTurns (ts : List Turn) : PackProgress s (t.setTurns ts) :=
  ⟨h.pending, h.registers, h.taken, h.left, h.counted⟩

theorem packProgress_logRead (b : Byte) : PackProgress s (t.logRead b) :=
  ⟨h.pending, h.registers, h.taken, h.left, h.counted⟩

/-- An entropy step takes the next byte of the stream that stood in `s` (R133, R144). -/
theorem packProgress_takeEntropy {e : Byte} {rest : List Byte} (hc : t.entCnt.val < 10) (hp : t.entPort = e :: rest) :
    PackProgress s (t.takeEntropy hc e rest) := by
  have hdrop : s.entPort.drop t.entCnt.val = e :: rest := h.left.symm.trans hp
  refine ⟨h.pending, h.registers, fun k hk => ?taken, ?left, ?counted⟩
  case taken =>
    have hnext : s.entPort[t.entCnt.val]? = some e := by
      rw [← Nat.add_zero t.entCnt.val, ← List.getElem?_drop, hdrop]
      rfl
    obtain hk | hk : k.val < t.entCnt.val ∨ k.val = t.entCnt.val := by
      simp only [State.takeEntropy_entCnt] at hk
      omega
    · rw [h.taken k hk, State.takeEntropy_entBuf, Vector.getElem_set_ne _ _ (by omega)]
    · simp [hk, hnext]
  case left =>
    simp only [State.takeEntropy_entPort, State.takeEntropy_entCnt]
    rw [← List.drop_drop, hdrop]
    rfl
  case counted =>
    simp only [State.takeEntropy_entTotal, State.takeEntropy_entCnt, h.counted]
    omega

end

end Sys2Proof.Machine

namespace Sys2Proof.Proofs

open Sys2Proof.Machine

/-- Settles O24: a host turn reads or is ignored, and the unit's turn waits, takes a byte, or commits what the ten bytes
taken make of TS_IN. -/
theorem packUnderEveryInterleaving : Obligations.PackUnderEveryInterleaving := by
  intro s t u h hn hstep
  obtain ⟨hr, hb, hpend⟩ := h.pending
  obtain ⟨level, ts, hts, -⟩ | ⟨w, ts, -, hr1, -⟩ | ⟨w, ts, -, -, -, rfl⟩ | ⟨w, ts, -, -, -, rfl⟩ | ⟨ts, -, hq, -⟩ |
    ⟨ts, -, -, -, he⟩ := step_cases hstep
  · exact absurd hts (hn level ts)
  · exact absurd hr1 (by simp [hr])
  · exact .inl (packProgress_logRead (packProgress_setTurns h ts) _)
  · rw [if_pos hb]
    exact .inl (packProgress_setTurns h ts)
  · exact absurd hq (by simp [hr, hb])
  · have hP := packProgress_setTurns h ts
    rw [hpend] at he
    obtain ⟨rfl, -⟩ | ⟨hc, e, rest, -, hp, rfl⟩ | ⟨-, h10, rfl⟩ := execPack_cases (t := u) he
    · exact .inl hP
    · exact .inl (packProgress_takeEntropy hP hc hp)
    · obtain ⟨-, htxt, htxtLen, htsIn, hcmd, -, -⟩ := hP.registers
      rw [commit_packResult]
      refine .inr ⟨rfl, rfl, rfl, htxt, htxtLen, htsIn, hcmd, ?_, ?_, fun k => ?_, fun k => ?_⟩
      · rw [hP.counted, h10]
      · rw [hP.left, h10]
      · rw [getElem_packValue_timestamp, htsIn]
      · rw [hP.taken k (by omega), getElem_packValue_entropy]

end Sys2Proof.Proofs

end

section
/-! PROOFS. The invariant (R32, R35, R36, R128, R241): it holds at reset, and each operation on the state keeps it. -/

namespace Sys2Proof.Machine

/-- A command's result sets ERR_POS as R32 says: to an index with INVALID_CHARACTER, to 0xFF with any other error. -/
def CmdResult.posOk : CmdResult → Prop
  | .done _ => True
  | .raise err pos => (err = .invalidCharacter → pos.toNat < 26) ∧ (err ≠ .invalidCharacter → pos = 0xFF#8)

theorem posOk_decodeResult (p : Params) (len : BitVec 16) (x : Text) : (decodeResult p len x).posOk := by
  obtain he | ⟨i, he⟩ | he := decodeResult_cases p len x
  · simp [he, CmdResult.posOk]
  · have := i.isLt
    simp only [he, CmdResult.posOk, ne_eq, not_true_eq_false, false_implies, and_true, BitVec.toNat_ofNat]
    omega
  · simp [he, CmdResult.posOk]

theorem blockIsReset_reset : blockIsReset State.reset :=
  ⟨rfl, rfl, rfl, rfl, rfl, rfl, rfl, rfl, rfl, rfl, rfl, rfl⟩

theorem blockIsReset_assertReset (s : State) : blockIsReset s.assertReset := blockIsReset_reset

theorem inv_reset : Inv State.reset :=
  ⟨by decide, by decide, by decide, by decide, by decide, fun h => absurd h (by decide)⟩

section

variable {s : State} (h : Inv s)
include h

theorem inv_setTurns (ts : List Turn) : Inv (s.setTurns ts) :=
  ⟨h.errPos_of_char, h.errPos_of_other, h.cmd_pending, h.entropy_only_pack, h.entCnt_counted, h.held_in_reset⟩

theorem inv_logRead (b : Byte) : Inv (s.logRead b) :=
  ⟨h.errPos_of_char, h.errPos_of_other, h.cmd_pending, h.entropy_only_pack, h.entCnt_counted, h.held_in_reset⟩

theorem inv_hostDuringReset (w : BusWord) : Inv (hostDuringReset w s) := by
  unfold hostDuringReset
  split
  · exact h
  · exact inv_logRead h _

theorem inv_resetInput (level : Bool) : Inv (s.resetInput level) := by
  cases level with
  | false =>
    exact ⟨h.errPos_of_char, h.errPos_of_other, h.cmd_pending, h.entropy_only_pack, h.entCnt_counted,
      fun hr => absurd hr (by simp)⟩
  | true =>
    exact ⟨inv_reset.errPos_of_char, inv_reset.errPos_of_other, inv_reset.cmd_pending, inv_reset.entropy_only_pack,
      inv_reset.entCnt_counted, fun _ => blockIsReset_assertReset s⟩

variable (hr : s.rst = false)
include hr

/-- An HWR changes data registers only, or accepts a command, which clears ent_cnt (R124). -/
theorem inv_writeByte (a d : Byte) : Inv (writeByte s a d) := by
  have hheld {t : State} (ht : t.rst = s.rst) : t.rst = true → blockIsReset t := fun h1 =>
    absurd (ht.symm.trans h1) (by simp [hr])
  unfold writeByte
  obtain ht | ⟨k, -, ht⟩ | ⟨i, -, ht⟩ | ⟨v, ht⟩ | ⟨v, ht⟩ | ⟨-, ht⟩ := writeLoc_cases s d (locOf a)
  · rw [ht]
    exact h
  case inr.inr.inr.inr.inr =>
    rw [ht]
    exact ⟨h.errPos_of_char, h.errPos_of_other, fun _ => rfl, fun _ _ => rfl, Nat.zero_le _, hheld rfl⟩
  all_goals
    rw [ht]
    exact ⟨h.errPos_of_char, h.errPos_of_other, h.cmd_pending, h.entropy_only_pack, h.entCnt_counted, hheld rfl⟩

/-- A commit clears BUSY and sets ERR_POS with ERRCODE (R126). -/
theorem inv_commit {r : CmdResult} (hpos : r.posOk) : Inv (s.commit r) := by
  have hbusy : (s.commit r).busy ≠ true := by simp
  have hcnt : (s.commit r).entCnt.val ≤ (s.commit r).entTotal := by simpa using h.entCnt_counted
  have hrst : (s.commit r).rst ≠ true := by simp [hr]
  cases r with
  | done w =>
    exact ⟨nofun, fun _ => rfl, fun hb => absurd hb hbusy, fun hb => absurd hb hbusy, hcnt,
      fun h1 => absurd h1 hrst⟩
  | raise err pos =>
    exact ⟨hpos.1, hpos.2, fun hb => absurd hb hbusy, fun hb => absurd hb hbusy, hcnt, fun h1 => absurd h1 hrst⟩

/-- An entropy step of a PACK counts its byte twice, in ent_cnt and in ent_total (R133, R36). -/
theorem inv_takeEntropy (hc : s.entCnt.val < 10) (e : Byte) (rest : List Byte) (hp : s.pendCmd = 0x01#8) :
    Inv (s.takeEntropy hc e rest) :=
  ⟨h.errPos_of_char, h.errPos_of_other, h.cmd_pending, fun _ hne => absurd hp hne,
    Nat.succ_le_succ h.entCnt_counted, fun h1 => absurd (hr.symm.trans h1) (by decide)⟩

/-- The unit's step on a pending command keeps the invariant. -/
theorem inv_exec_pending {t : State} (hb : s.busy = true) (he : exec (decodeCmd s.pendCmd) s = .next t) : Inv t := by
  obtain ⟨-, -, -, rfl⟩ | ⟨hp, hc, e, rest, -, rfl⟩ | ⟨-, -, rfl⟩ | ⟨-, rfl⟩ | ⟨-, rfl⟩ | ⟨-, rfl⟩ | ⟨-, rfl⟩ :=
    exec_decodeCmd_cases hb he
  · exact h
  · exact inv_takeEntropy h hr hc e rest hp
  · exact inv_commit h hr trivial
  · exact inv_commit h hr trivial
  · exact inv_commit h hr trivial
  · exact inv_commit h hr (posOk_decodeResult _ _ _)
  · exact inv_commit h hr ⟨nofun, fun _ => rfl⟩

end

end Sys2Proof.Machine

namespace Sys2Proof.Proofs

open Sys2Proof.Machine

/-- Settles O59: whatever a step does is one of the operations that keep the invariant, after the turn is taken off. -/
theorem stepKeepsInvariant : Obligations.StepKeepsInvariant := by
  intro s t h hstep
  have h' := inv_setTurns h
  obtain ⟨level, ts, -, rfl⟩ | ⟨w, ts, -, -, rfl⟩ | ⟨w, ts, -, -, -, rfl⟩ | ⟨w, ts, -, hr, -, rfl⟩ | ⟨ts, -, -, rfl⟩ |
    ⟨ts, -, hr, hb, he⟩ := step_cases hstep
  · exact inv_resetInput (h' ts) level
  · exact inv_hostDuringReset (h' ts) w
  · exact inv_logRead (h' ts) _
  · split
    · exact h' ts
    · exact inv_writeByte (h' ts) hr _ _
  · exact h' ts
  · exact inv_exec_pending (h' ts) hr hb he

/-- Settles O58. -/
theorem resetMeetsInvariant : Obligations.ResetMeetsInvariant := inv_reset

end Sys2Proof.Proofs

end

section
/-! PROOFS. What ent_buf holds at and above ent_cnt (R124): no read and no result sees it. The simulation is shown for
what a turn comes to (`fetch`) and for each instruction, and the step is the one after the other. -/

namespace Sys2Proof.Machine

/-- The same state with other bytes in ent_buf. -/
def State.setEntBuf (s : State) (b : Vector Byte 10) : State := { s with entBuf := b }

/-- Two buffers agree below ent_cnt. -/
def agreesBelow (n : Fin 11) (b b' : Vector Byte 10) : Prop :=
  ∀ k : Fin 10, k.val < n.val → b[k.val] = b'[k.val]

theorem sameButUnreadEntropy_setEntBuf {s : State} {b : Vector Byte 10} (h : agreesBelow s.entCnt s.entBuf b) :
    sameButUnreadEntropy s (s.setEntBuf b) := ⟨rfl, h⟩

theorem sameButUnreadEntropy_refl (s : State) : sameButUnreadEntropy s s := ⟨rfl, fun _ _ => rfl⟩

/-- Related states differ in ent_buf alone. -/
theorem exists_setEntBuf_of_same {s t : State} (h : sameButUnreadEntropy s t) :
    ∃ b, agreesBelow s.entCnt s.entBuf b ∧ t = s.setEntBuf b := ⟨t.entBuf, h.2, h.1.symm⟩

/-- With ten bytes taken nothing of ent_buf is unread. -/
theorem eq_of_agreesBelow_ten {n : Fin 11} {b b' : Vector Byte 10} (h : agreesBelow n b b') (hn : n.val = 10) : b = b' :=
  Vector.ext fun k hk => h ⟨k, hk⟩ (by simp only; omega)

/-- Both buffers get the byte that is taken. -/
theorem agreesBelow_set {n : Fin 11} {b b' : Vector Byte 10} (h : agreesBelow n b b') (hn : n.val < 10) (e : Byte) :
    agreesBelow ⟨n.val + 1, by omega⟩ (b.set n.val e) (b'.set n.val e) := by
  intro k hk
  obtain hk | hk : n.val = k.val ∨ k.val < n.val := by
    simp only at hk
    omega
  · simp [hk]
  · rw [Vector.getElem_set_ne _ _ (by omega), Vector.getElem_set_ne _ _ (by omega), h k hk]

/-! ### The operations do not look at ent_buf -/

section

variable (s : State) (b : Vector Byte 10)

theorem readByte_setEntBuf (a : Byte) : readByte (s.setEntBuf b) a = readByte s a := by
  unfold readByte
  cases locOf a
  all_goals rfl

theorem unitCommit_setEntBuf (r : CmdResult) : unitCommit (s.setEntBuf b) r = (unitCommit s r).setEntBuf b := by
  cases hb : s.busy with
  | false => rw [unitCommit_of_idle hb, unitCommit_of_idle (s := s.setEntBuf b) hb]
  | true =>
    rw [unitCommit_of_busy hb, unitCommit_of_busy (s := s.setEntBuf b) hb]
    cases r
    all_goals rfl

end

/-! ### The simulation -/

section

variable {s : State} {b : Vector Byte 10} (h : agreesBelow s.entCnt s.entBuf b)
include h

theorem same_unitCommit (r : CmdResult) :
    sameButUnreadEntropy (unitCommit s r) (unitCommit (s.setEntBuf b) r) := by
  rw [unitCommit_setEntBuf]
  refine sameButUnreadEntropy_setEntBuf ?_
  unfold unitCommit
  split
  · simpa using h
  · exact h

theorem same_hostDuringReset (w : BusWord) :
    sameButUnreadEntropy (hostDuringReset w s) (hostDuringReset w (s.setEntBuf b)) := by
  unfold hostDuringReset
  split
  all_goals exact sameButUnreadEntropy_setEntBuf h

/-- An acceptance clears both buffers, and every other write leaves them (R124). -/
theorem same_writeLoc (d : Byte) (l : Loc) :
    sameButUnreadEntropy (writeLoc s d l) (writeLoc (s.setEntBuf b) d l) := by
  cases l with
  | cmd => exact sameButUnreadEntropy_refl _
  | _ => exact sameButUnreadEntropy_setEntBuf h

/-- A PACK takes its byte into both buffers, and commits only when no byte of ent_buf is unread (R140). -/
theorem same_exec_pack {s' : State} (he : exec .pack s = .next s') :
    ∃ t', exec .pack (s.setEntBuf b) = .next t' ∧ sameButUnreadEntropy s' t' := by
  obtain ⟨rfl, hwait⟩ | ⟨hc, e, rest, hb, hp, rfl⟩ | ⟨-, h10, rfl⟩ := execPack_cases he
  · exact ⟨_, exec_pack_of_wait (s := s'.setEntBuf b) hwait, sameButUnreadEntropy_setEntBuf h⟩
  · exact ⟨_, exec_pack_of_byte (s := s.setEntBuf b) hb hc hp, rfl, agreesBelow_set h hc e⟩
  · obtain rfl := eq_of_agreesBelow_ten h h10
    exact ⟨_, he, sameButUnreadEntropy_refl _⟩

/-- No instruction looks at an unread byte. -/
theorem same_exec {i : Instr} {s' : State} (he : exec i s = .next s') :
    ∃ t', exec i (s.setEntBuf b) = .next t' ∧ sameButUnreadEntropy s' t' := by
  cases i with
  | hrd a =>
    cases he
    refine ⟨_, exec_hrd _ a, ?_⟩
    rw [readByte_setEntBuf]
    exact sameButUnreadEntropy_setEntBuf h
  | hwr a d =>
    cases hb : s.busy with
    | true =>
      rw [exec_hwr_of_busy hb] at he
      cases he
      exact ⟨_, exec_hwr_of_busy (s := s.setEntBuf b) hb a d, sameButUnreadEntropy_setEntBuf h⟩
    | false =>
      rw [exec_hwr_of_idle hb] at he
      cases he
      exact ⟨_, exec_hwr_of_idle (s := s.setEntBuf b) hb a d, same_writeLoc h d (locOf a)⟩
  | nop =>
    cases he
    exact ⟨_, rfl, same_unitCommit h _⟩
  | pack => exact same_exec_pack h he
  | encode =>
    cases he
    exact ⟨_, rfl, same_unitCommit h (encodeResult s)⟩
  | decode =>
    cases he
    exact ⟨_, rfl, same_unitCommit h (decodeResult s.params s.txtLen s.txt)⟩
  | illegal c =>
    cases he
    exact ⟨_, rfl, same_unitCommit h _⟩

end

end Sys2Proof.Machine

namespace Sys2Proof.Proofs

open Sys2Proof.Machine

/-- Settles O54: the same turn comes to the same operation, or runs the same instruction, on both states. -/
theorem unreadEntropyNeverMatters : Obligations.UnreadEntropyNeverMatters := by
  intro s t s' h hstep
  obtain ⟨b, hb, rfl⟩ := exists_setEntBuf_of_same h
  let u := s.setEntBuf b
  obtain ⟨level, ts, hts, rfl⟩ | ⟨w, ts, hts, hr, rfl⟩ | ⟨w, ts, hts, hr, -⟩ | ⟨w, ts, hts, hr, -⟩ | ⟨ts, hts, hq, rfl⟩ |
    ⟨ts, hts, hr, hbusy, he⟩ := step_cases hstep
  · refine ⟨_, step_rst (s := u) hts, ?_⟩
    cases level with
    | true => exact sameButUnreadEntropy_refl _
    | false => exact sameButUnreadEntropy_setEntBuf hb
  · exact ⟨_, step_host_of_rst (s := u) hts hr, same_hostDuringReset (s := s.setTurns ts) hb w⟩
  · rw [step_host (s := u) hts hr]
    exact same_exec (s := s.setTurns ts) hb ((step_host hts hr).symm.trans hstep)
  · rw [step_host (s := u) hts hr]
    exact same_exec (s := s.setTurns ts) hb ((step_host hts hr).symm.trans hstep)
  · exact ⟨_, step_unit_of_quiet (s := u) hts hq, sameButUnreadEntropy_setEntBuf hb⟩
  · rw [step_unit_of_pending (s := u) hts hr hbusy]
    exact same_exec (s := s.setTurns ts) hb he

end Sys2Proof.Proofs

end

section
/-! PROOFS. What a step that is no reset can do, and what follows for the status (R30), the source's stream (R141) and the
registers (R68, R128, R234). -/

namespace Sys2Proof.Machine

/-! ### A step that is no reset -/

/-- A step that is no reset touches the turns and the host's record at most, or is an HWR to an idle unit, or is the unit's
step on the pending command. -/
theorem step_cases_of_noReset {s t : State} (hn : noResetNext s) (h : step s = .next t) :
    (∃ ts log, t = { s with turns := ts, rdLog := log }) ∨
    (∃ a d ts, s.turns = .host (busWord true a d) :: ts ∧ s.busy = false ∧ t = writeByte (s.setTurns ts) a d) ∨
    (unitMovesNext s ∧ s.rst = false ∧ s.busy = true ∧
      ∃ ts, exec (decodeCmd s.pendCmd) (s.setTurns ts) = .next t) := by
  obtain ⟨level, ts, hts, -⟩ | ⟨w, ts, -, -, rfl⟩ | ⟨w, ts, -, -, -, rfl⟩ | ⟨w, ts, hts, -, hwe, rfl⟩ | ⟨ts, -, -, rfl⟩ |
    ⟨ts, hts, hr, hb, he⟩ := step_cases h
  · exact absurd hts (hn level ts)
  · unfold hostDuringReset
    split
    · exact .inl ⟨ts, s.rdLog, rfl⟩
    · exact .inl ⟨ts, _, rfl⟩
  · exact .inl ⟨ts, _, rfl⟩
  · obtain hb | hb := Bool.eq_false_or_eq_true s.busy
    · exact .inl ⟨ts, s.rdLog, if_pos hb⟩
    · have hw : busWord true (busAddr w) (busData w) = w := hwe ▸ busWord_fields w
      exact .inr (.inl ⟨busAddr w, busData w, ts, hw.symm ▸ hts, hb, if_neg (by simp [hb])⟩)
  · exact .inl ⟨ts, s.rdLog, rfl⟩
  · exact .inr (.inr ⟨unitMovesNext_of_turns hts, hr, hb, ts, he⟩)

/-- The unit's step on a pending command waits for a byte, takes one, or commits (R126, R133). -/
theorem exec_pending_cases {s t : State} {c : Byte} (hb : s.busy = true) (h : exec (decodeCmd c) s = .next t) :
    (c = 0x01#8 ∧ s.entCnt.val < 10 ∧ s.entPort = [] ∧ t = s) ∨
    (c = 0x01#8 ∧ ∃ (hc : s.entCnt.val < 10) (e : Byte) (rest : List Byte), s.entPort = e :: rest ∧
      t = s.takeEntropy hc e rest) ∨
    ((c ≠ 0x01#8 ∨ s.entCnt.val = 10) ∧ ∃ r, t = s.commit r) := by
  obtain hwait | htake | ⟨-, h10, ht⟩ | ⟨rfl, ht⟩ | ⟨rfl, ht⟩ | ⟨rfl, ht⟩ | ⟨hc, ht⟩ := exec_decodeCmd_cases hb h
  · exact .inl hwait
  · exact .inr (.inl htake)
  · exact .inr (.inr ⟨.inr h10, _, ht⟩)
  · exact .inr (.inr ⟨.inl (by decide), _, ht⟩)
  · exact .inr (.inr ⟨.inl (by decide), _, ht⟩)
  · exact .inr (.inr ⟨.inl (by decide), _, ht⟩)
  · refine .inr (.inr ⟨.inl ?_, _, ht⟩)
    rintro rfl
    exact absurd hc (by decide)

/-! ### What an HWR leaves unchanged (R121) -/

section

variable (s : State) (a d : Byte)

theorem writeByte_errCode : (writeByte s a d).errCode = s.errCode := by
  unfold writeByte
  cases locOf a
  all_goals rfl

theorem writeByte_entPort : (writeByte s a d).entPort = s.entPort := by
  unfold writeByte
  cases locOf a
  all_goals rfl

theorem writeByte_entTotal : (writeByte s a d).entTotal = s.entTotal := by
  unfold writeByte
  cases locOf a
  all_goals rfl

/-- Only a write to CMD changes BUSY (R124). -/
theorem addr_eq_cmd_of_writeByte_busy_ne (h : (writeByte s a d).busy ≠ s.busy) : a = 0x40#8 := by
  by_contra ha
  exact h (writeLoc_busy s d (locOf a) fun hl => ha (locOf_eq_cmd hl))

end

/-- The other steps are the reset, and the turn of rst to 0, which changes nothing else (R241). -/
theorem step_of_not_noReset {s t : State} (hn : ¬ noResetNext s) (h : step s = .next t) :
    ∃ ts, (s.turns = .rst true :: ts ∧ t = (s.setTurns ts).assertReset) ∨ t = { s with turns := ts, rst := false } := by
  obtain ⟨level, ts, hts⟩ : ∃ level ts, s.turns = .rst level :: ts := by
    simpa only [noResetNext, ne_eq, not_forall, not_not] using hn
  refine ⟨ts, ?_⟩
  rw [step_rst hts] at h
  cases h
  cases level with
  | true => exact .inl ⟨hts, rfl⟩
  | false => exact .inr rfl

/-- A step that keeps ERRCODE and BUSY owes no reason for a change of them (R30). -/
theorem status_unchanged {s t : State} {P Q R : Prop} (he : t.errCode = s.errCode) (hb : t.busy = s.busy) :
    (t.errCode ≠ s.errCode → P) ∧ (s.busy = true → t.busy = false → Q) ∧ (s.busy = false → t.busy = true → R) := by
  refine ⟨absurd he, fun hs ht => ?_, fun hs ht => ?_⟩
  all_goals
    rw [hb, hs] at ht
    cases ht

/-- With no turn listed every step of a pending PACK is the unit's (log entry 1). -/
theorem step_of_pack {s : State} (hr : s.rst = false) (hb : s.busy = true) (hp : s.pendCmd = 0x01#8)
    (hts : s.turns = []) : step s = exec .pack s := by
  rw [step_unit_of_pending (.inl ⟨hts, rfl⟩) hr hb, setTurns_eq_self hts, hp]
  rfl

end Sys2Proof.Machine

namespace Sys2Proof.Proofs

open Sys2Proof.Machine

/-- Settles O20: of the unit's steps only the entropy step of a PACK touches the stream, and that PACK is ready. -/
theorem byteTakenWhenValidAndReady : Obligations.ByteTakenWhenValidAndReady := by
  intro s hu
  obtain ⟨ts, hts⟩ := exists_turns_of_unitMovesNext hu
  obtain ⟨t, ht⟩ := step_total s
  refine ⟨t, ht, fun hready => ((entReady_iff s).mp hready).2, ?_⟩
  by_cases hq : s.rst = true ∨ s.busy = false
  · rw [step_unit_of_quiet hts hq] at ht
    cases ht
    refine ⟨fun ⟨hready, _⟩ => ?_, fun _ => ⟨rfl, rfl⟩⟩
    obtain ⟨hr, hb, -⟩ := (entReady_iff s).mp hready
    exact absurd hq (by simp [hr, hb])
  · obtain ⟨hr, hb⟩ : s.rst = false ∧ s.busy = true := by simpa using hq
    rw [step_unit_of_pending hts hr hb] at ht
    obtain ⟨-, -, hp, rfl⟩ | ⟨hc, hlt, e, rest, hp, rfl⟩ | ⟨hc, r, rfl⟩ := exec_pending_cases (s := s.setTurns ts) hb ht
    · refine ⟨fun ⟨_, hvalid⟩ => ?_, fun _ => ⟨rfl, rfl⟩⟩
      obtain ⟨e, rest, hp'⟩ := (entValid_iff s).mp hvalid
      exact absurd (hp.symm.trans hp') (by simp)
    · refine ⟨fun _ => ⟨e, congrArg List.head? hp, hp, rfl, fun k hk => ?_⟩, fun hnot => ?_⟩
      · simp [hk]
      · exact absurd ⟨(entReady_iff s).mpr ⟨hr, hb, hc, hlt⟩, (entValid_iff s).mpr ⟨e, rest, hp⟩⟩ hnot
    · refine ⟨fun ⟨hready, _⟩ => ?_, fun _ => ⟨commit_entPort _ _, commit_entTotal _ _⟩⟩
      obtain ⟨-, -, hp, hlt⟩ := (entReady_iff s).mp hready
      obtain hc | h10 := hc
      · exact absurd hp hc
      · exact absurd h10 hlt.ne

/-- Settles O43. -/
theorem stepRunsHostTransaction : Obligations.StepRunsHostTransaction := by
  intro s w ts i hr hts hi
  rw [step_host hts hr, hi]
  rfl

/-- Settles O44: the unit's turn, by default and listed. -/
theorem stepRunsPendingCommand : Obligations.StepRunsPendingCommand := by
  refine ⟨fun s i hr hb hi => ⟨fun hts => ?_, fun ts hts => ?_⟩, fun s hb => ⟨fun hts => ?_, fun ts hts => ?_⟩⟩
  · rw [step_unit_of_pending (.inl ⟨hts, rfl⟩) hr hb, setTurns_eq_self hts, hi]
  · rw [step_unit_of_pending (.inr hts) hr hb, hi]
    rfl
  · rw [step_unit_of_quiet (.inl ⟨hts, rfl⟩) (.inr hb), setTurns_eq_self hts]
  · exact step_unit_of_quiet (.inr hts) (.inr hb)

/-- Settles O46: a starved PACK may take bytes but never the tenth, and with none left it waits at every step. -/
theorem nothingStopsButAHang : Obligations.NothingStopsButAHang := by
  refine ⟨exec_total, step_total, fun s t hr hb hp hlen hn h => ?_, fun s n hr hb hp hc he hts => ?_⟩
  · obtain ⟨ts, log, rfl⟩ | ⟨a, d, ts, -, hb', -⟩ | ⟨-, -, -, ts, hexec⟩ := step_cases_of_noReset hn h
    · exact ⟨hr, hb, hp, hlen⟩
    · exact absurd hb (by simp [hb'])
    · obtain ⟨-, -, -, rfl⟩ | ⟨-, hc, e, rest, hport, rfl⟩ | ⟨hc | h10, -⟩ :=
        exec_pending_cases (s := s.setTurns ts) hb hexec
      · exact ⟨hr, hb, hp, hlen⟩
      · refine ⟨hr, hb, hp, ?_⟩
        simp only [State.setTurns_entPort] at hport
        simp only [hport, List.length_cons] at hlen
        simp only [State.takeEntropy_entCnt, State.takeEntropy_entPort, State.setTurns_entCnt]
        omega
      · exact absurd hp hc
      · simp only [State.setTurns_entCnt] at h10
        omega
  · induction n with
    | zero => rfl
    | succ n ih => rw [run_succ_of_step ((step_of_pack hr hb hp hts).trans (exec_pack_of_no_byte hb he hc)), ih]

/-- Settles O47: an enabled commit is none of the steps that keep a PACK pending. -/
theorem enabledCommitIsTaken : Obligations.EnabledCommitIsTaken := by
  intro s hu henabled
  obtain ⟨hr, hb, hc⟩ := (commitEnabled_iff s).mp henabled
  obtain ⟨ts, hts⟩ := exists_turns_of_unitMovesNext hu
  obtain ⟨t, ht⟩ := step_total s
  refine ⟨t, ht, ?_⟩
  rw [step_unit_of_pending hts hr hb] at ht
  obtain ⟨hp, hlt, -, -⟩ | ⟨hp, hlt, -⟩ | ⟨-, r, rfl⟩ := exec_pending_cases (s := s.setTurns ts) hb ht
  · exact absurd hc (not_or.mpr ⟨not_not.mpr hp, hlt.ne⟩)
  · exact absurd hc (not_or.mpr ⟨not_not.mpr hp, hlt.ne⟩)
  · exact commit_busy _ r

/-- Settles O48: a command that stays pending has waited for a byte or taken one. -/
theorem noResultBeforeCommit : Obligations.NoResultBeforeCommit := by
  intro s t hb hn h ht
  obtain ⟨ts, log, rfl⟩ | ⟨a, d, ts, -, hb', -⟩ | ⟨-, -, -, ts, hexec⟩ := step_cases_of_noReset hn h
  · exact ⟨rfl, rfl, rfl, rfl, rfl, rfl, rfl⟩
  · exact absurd hb (by simp [hb'])
  · obtain ⟨-, -, -, rfl⟩ | ⟨-, hc, e, rest, -, rfl⟩ | ⟨-, r, rfl⟩ := exec_pending_cases (s := s.setTurns ts) hb hexec
    · exact ⟨rfl, rfl, rfl, rfl, rfl, rfl, rfl⟩
    · exact ⟨rfl, rfl, rfl, rfl, rfl, rfl, rfl⟩
    · exact absurd ht (by simp)

/-- Settles O50: outside a reset ERRCODE changes and BUSY clears by a commit alone, and only a write to CMD sets BUSY. -/
theorem statusChangesOnlyByLifecycle : Obligations.StatusChangesOnlyByLifecycle := by
  intro s t h
  by_cases hn : noResetNext s
  · obtain ⟨ts, log, rfl⟩ | ⟨a, d, ts, hts, hb, rfl⟩ | ⟨hu, hr, hb, ts, hexec⟩ := step_cases_of_noReset hn h
    · exact status_unchanged rfl rfl
    · refine ⟨absurd (writeByte_errCode _ a d), fun hb' => absurd (hb.symm.trans hb') Bool.false_ne_true, fun _ ht => ?_⟩
      have ha := addr_eq_cmd_of_writeByte_busy_ne (s.setTurns ts) a d (by simp [ht, hb])
      exact ⟨d, ts, ha ▸ hts⟩
    · obtain ⟨-, -, -, rfl⟩ | ⟨-, hc, e, rest, -, rfl⟩ | ⟨hc, -⟩ := exec_pending_cases (s := s.setTurns ts) hb hexec
      · exact status_unchanged rfl rfl
      · exact status_unchanged rfl rfl
      · have henabled := (commitEnabled_iff s).mpr ⟨hr, hb, hc⟩
        exact ⟨fun _ => .inl ⟨hu, henabled⟩, fun _ _ => .inl ⟨hu, henabled⟩,
          fun hb' => absurd (hb'.symm.trans hb) Bool.false_ne_true⟩
  · obtain ⟨ts, ⟨hts, rfl⟩ | rfl⟩ := step_of_not_noReset hn h
    · exact ⟨fun _ => .inr ⟨ts, hts⟩, fun _ _ => .inr ⟨ts, hts⟩, fun _ ht => absurd ht Bool.false_ne_true⟩
    · exact status_unchanged rfl rfl

/-- Settles O51: of the steps that are no reset only the entropy step of a PACK changes the stream or the count. -/
theorem onlyPackTakesEntropy : Obligations.OnlyPackTakesEntropy := by
  intro s t h hne hn
  obtain ⟨ts, log, rfl⟩ | ⟨a, d, ts, -, -, rfl⟩ | ⟨-, -, hb, ts, hexec⟩ := step_cases_of_noReset hn h
  · exact absurd hne (by simp)
  · exact absurd hne (by simp [writeByte_entPort, writeByte_entTotal])
  · obtain ⟨-, -, -, rfl⟩ | ⟨hp, hc, e, rest, hport, rfl⟩ | ⟨-, r, rfl⟩ :=
      exec_pending_cases (s := s.setTurns ts) hb hexec
    · exact absurd hne (by simp)
    · exact ⟨hb, hp, hc, rfl, hb, e, hport⟩
    · exact absurd hne (by simp)

/-- Settles O52: an idle unit has no pending command to step. -/
theorem idleRegistersChangeOnlyByHwr : Obligations.IdleRegistersChangeOnlyByHwr := by
  intro s t hb hn hw h
  obtain ⟨ts, log, rfl⟩ | ⟨a, d, ts, hts, -⟩ | ⟨-, -, hb', -⟩ := step_cases_of_noReset hn h
  · rfl
  · exact absurd hts (hw a d ts)
  · exact absurd hb (by simp [hb'])

end Sys2Proof.Proofs

end

section
/-! PROOFS. Reset (R240–R242), and a placed instruction (log entries 9 and 12). -/

namespace Sys2Proof.Machine

/-! ### The state after reset -/

/-- STATUS reads 0 when nothing is pending and no error stands (R30). -/
theorem statusByte_eq_zero {s : State} (hb : s.busy = false) (he : s.errCode = .none) : statusByte s = 0x00#8 := by
  simp [statusByte, errBit, hb, he, ErrCode.bits]

theorem tsOut_reset : tsOut State.reset.bin = 0#64 := by decide

/-- Every symbol of the reset value of BIN is 0 (R242). -/
theorem symbolOf_reset (i : Fin 26) : symbolOf State.reset.bin i = 0#5 := by
  revert i
  decide

/-! ### The host's turn with an HWR while idle -/

section

variable {s : State} {w : BusWord} {a d : Byte} {ts : List Turn} (hts : s.turns = .host w :: ts) (hr : s.rst = false)
  (hb : s.busy = false)
include hts hr hb

theorem step_hwr {l : Loc} (hw : decodeBus w = .hwr a d) (hl : locOf a = l) :
    step s = .next (writeLoc (s.setTurns ts) d l) := by
  rw [step_host hts hr, hw]
  exact exec_hwr_of_locOf (s := s.setTurns ts) hb d hl

/-- An HWR to CMD gives the idle unit a command (R124). -/
theorem step_accept (hw : decodeBus w = .hwr 0x40#8 d) : step s = .next ((s.setTurns ts).accept d) :=
  step_hwr hts hr hb hw locOf_cmd

end

/-! ### A placed instruction -/

/-- A row of at most 8 bits is a command byte (log entry 12). -/
theorem decodeTableWord_of_cmd8 {nbits w : Nat} {i : Instr} (hn : nbits ≤ 8) (h : decodeTableWord nbits w = some i) :
    w < 2 ^ 8 ∧ decodeCmd (BitVec.ofNat 8 w) = i := by
  simp only [decodeTableWord, formatOfBits, if_pos hn, decodeNat] at h
  split_ifs at h with hw
  · exact ⟨hw, Option.some.inj h⟩

/-- A wider row is a bus word (log entry 12). -/
theorem decodeTableWord_of_bus17 {nbits w : Nat} {i : Instr} (hn : 8 < nbits) (h : decodeTableWord nbits w = some i) :
    decodeBus (BitVec.ofNat 17 w) = i := by
  simp only [decodeTableWord, formatOfBits, if_neg (Nat.not_le.mpr hn), decodeNat] at h
  split_ifs at h with hw
  · exact Option.some.inj h

end Sys2Proof.Machine

namespace Sys2Proof.Proofs

open Sys2Proof.Machine

/-- Settles O55: whatever came before, the block stands as after reset, so the table is read off that state. -/
theorem resetSetsEveryRegister : Obligations.ResetSetsEveryRegister := by
  unfold Obligations.ResetSetsEveryRegister
  intro isReset
  have table {t : State} (h : blockIsReset t) : isReset t := by
    obtain ⟨hbin, htxt, htxtLen, htsIn, hcmd, hbusy, herrCode, herrPos, hpend, hcnt, hbuf, htotal⟩ := h
    refine ⟨fun k => ?_, fun i => ?_, htxtLen, htsIn, hcmd, hbusy, herrCode, herrPos, hpend, hcnt, fun k => ?_, htotal,
      ?_, ?_, readByte_caps t⟩
    · simp [hbin, State.reset]
    · simp [htxt, State.reset]
    · simp [hbuf, State.reset]
    · rw [readByte_status, statusByte_eq_zero hbusy herrCode]
    · rw [hbin, tsOut_reset]
  exact ⟨table blockIsReset_reset, fun s ts hts =>
    ⟨_, step_rst hts, table (blockIsReset_assertReset (s.setTurns ts)), rfl, rfl⟩⟩

/-- Settles O56: each turn while rst = 1 has its own step. -/
theorem rstHoldsTheBlock : Obligations.RstHoldsTheBlock := by
  intro s hr
  refine ⟨by simp [entReady, hr], by simp [commitEnabled, hr], fun hts => ?_, fun ts hts => ?_, fun a d ts hts => ?_,
    fun a d ts hts => ?_, fun ts hts => ?_⟩
  · rw [step_unit_of_quiet (.inl ⟨hts, rfl⟩) (.inl hr), setTurns_eq_self hts]
  · exact step_unit_of_quiet (.inr hts) (.inl hr)
  · rw [step_host_of_rst hts hr, hostDuringReset, busWe_busWord]
    rfl
  · rw [step_host_of_rst hts hr, hostDuringReset, busWe_busWord]
    rfl
  · exact step_rst hts

/-- Settles O57: the HWR to CMD is accepted, and the text form of BIN = 0 is 26 times the character of symbol 0. -/
theorem encodeAfterResetGivesZeros : Obligations.EncodeAfterResetGivesZeros := by
  let s : State := { State.reset with turns := [.host 0x14002#17, .unit] }
  let s' : State := (s.setTurns [.unit]).accept 0x02#8
  have haccept : step s = .next s' := step_accept rfl rfl rfl (by decide)
  have hcommit := (step_unit_of_pending (s := s') (ts := []) (.inr rfl) rfl rfl).trans (exec_encode_of_busy rfl)
  refine ⟨_, (run_succ_of_step haccept 1).trans (run_succ_of_step hcommit 0), fun i => ?_, rfl, rfl, rfl⟩
  exact (getElem_textOf State.reset.bin i.val i.isLt).trans (by rw [symbolOf_reset]; rfl)

/-- Settles O45: each format of row by the turn that `placeWord` puts first. -/
theorem stepRunsPlacedWord : Obligations.StepRunsPlacedWord := by
  intro s nbits w i h
  refine ⟨fun hn => ?_, fun hn => ?_⟩
  · obtain rfl := decodeTableWord_of_bus17 hn h
    have hplace : s.withFetchWord nbits w = s.placeWord .bus17 w := by
      rw [State.withFetchWord, formatOfBits, if_neg (Nat.not_le.mpr hn)]
    rw [hplace]
    exact step_host (s := s.placeWord .bus17 w) rfl rfl
  · obtain ⟨hw, rfl⟩ := decodeTableWord_of_cmd8 hn h
    have hplace : s.withFetchWord nbits w = s.placeWord .cmd8 w := by
      rw [State.withFetchWord, formatOfBits, if_pos hn]
    refine ⟨BitVec.ofNat 8 w, (s.placeWord .cmd8 w).entBuf, by simpa using hw, ?_⟩
    rw [hplace]
    exact step_unit_of_pending (s := s.placeWord .cmd8 w) (.inr rfl) rfl rfl

end Sys2Proof.Proofs

end

section
/-! PROOFS. Whole transactions and commands: the bytes an HWR changes as the host reads them (R121, R210), WRTS (R95), and
a PACK from acceptance to commit (R141). -/

namespace Sys2Proof.Machine

/-! ### A write, seen through reads -/

/-- The address of a location (R61); 0 stands for the reserved ones, which have many. -/
def Loc.addr : Loc → Nat
  | .bin k => k.val
  | .txt i => 0x10 + i.val
  | .txtLen j => 0x2A + j.val
  | .tsIn j => 0x30 + j.val
  | .tsOut j => 0x38 + j.val
  | .cmd => 0x40
  | .status => 0x41
  | .errPos => 0x42
  | .caps => 0x43
  | .reserved => 0

/-- A location that stores what is written there (R122). -/
def Loc.isData : Loc → Bool
  | .bin _ => true
  | .txt _ => true
  | .txtLen _ => true
  | .tsIn _ => true
  | _ => false

/-- An address is that of its location. -/
theorem toNat_eq_addr {a : Byte} (hr : locOf a ≠ .reserved) : a.toNat = (locOf a).addr := by
  obtain ⟨k, h⟩ | ⟨i, h⟩ | ⟨j, h⟩ | ⟨j, h⟩ | ⟨j, h⟩ | rfl | rfl | rfl | rfl | h := locOf_cases a
  · rwa [locOf_bin k h]
  · rwa [locOf_txt i h]
  · rwa [locOf_txtLen j h]
  · rwa [locOf_tsIn j h]
  · rwa [locOf_tsOut j h]
  · decide
  · decide
  · decide
  · decide
  · exact absurd (locOf_reserved h) hr

/-- The data registers' addresses (R122). -/
theorem isData_locOf {a : Byte} (ha : a.toNat ≤ 0x2B ∨ 0x30 ≤ a.toNat ∧ a.toNat ≤ 0x37) : (locOf a).isData = true := by
  obtain ⟨k, h⟩ | ⟨i, h⟩ | ⟨j, h⟩ | ⟨j, h⟩ | ⟨j, h⟩ | rfl | rfl | rfl | rfl | h := locOf_cases a
  · rw [locOf_bin k h, Loc.isData]
  · rw [locOf_txt i h, Loc.isData]
  · rw [locOf_txtLen j h, Loc.isData]
  · rw [locOf_tsIn j h, Loc.isData]
  · omega
  · exact absurd ha (by decide)
  · exact absurd ha (by decide)
  · exact absurd ha (by decide)
  · exact absurd ha (by decide)
  · omega

theorem readLoc_writeLoc_same (s : State) (d : Byte) {l : Loc} (hl : l.isData = true) :
    readLoc (writeLoc s d l) l = d := by
  rw [readLoc_writeLoc]
  cases l with
  | bin _ => rfl
  | txt _ => rfl
  | txtLen _ => rfl
  | tsIn _ => rfl
  | _ => cases hl

/-- A written BIN[k] with `k` at most 5 shows in byte `k + 2` of TS_OUT (R210). -/
theorem readLoc_tsOut_setBin (s : State) (d : Byte) (k : Fin 6) :
    readLoc (s.setBin ⟨k.val, by omega⟩ d) (.tsOut ⟨k.val + 2, by omega⟩) = d := by
  rw [readLoc, digitBE_tsOut_low, State.setBin_bin]
  simp

/-- Every other byte of TS_OUT reads as before (R210). -/
theorem readLoc_tsOut_setBin_ne (s : State) (d : Byte) {k : Fin 16} {j : Fin 8} (h : j.val ≠ k.val + 2) :
    readLoc (s.setBin k d) (.tsOut j) = readLoc s (.tsOut j) := by
  simp only [readLoc]
  by_cases hj : j.val < 2
  · rw [digitBE_tsOut_high _ _ hj, digitBE_tsOut_high _ _ hj]
  · obtain ⟨j, hj8⟩ := j
    obtain ⟨i, rfl⟩ : ∃ i, j = i + 2 := ⟨j - 2, by simp only at hj; omega⟩
    have low (b : Identifier) := digitBE_tsOut_low b ⟨i, by omega⟩
    simp only at low h
    rw [low, low, State.setBin_bin, Vector.getElem_set_ne _ _ (by omega)]

/-- A write to a data register changes no other location's byte, but for the TS_OUT view of BIN (R122, R210). -/
theorem readLoc_writeLoc_ne (s : State) (d : Byte) {l l' : Loc} (hl : l.isData = true) (hne : l' ≠ l)
    (hview : ∀ (k : Fin 16) (j : Fin 8), l = .bin k → l' = .tsOut j → j.val ≠ k.val + 2) :
    readLoc (writeLoc s d l) l' = readLoc s l' := by
  cases l with
  | bin k =>
    cases l' with
    | bin k' => exact Vector.getElem_set_ne k.isLt k'.isLt fun e => hne (congrArg Loc.bin (Fin.ext e.symm))
    | tsOut j => exact readLoc_tsOut_setBin_ne s d (hview k j rfl rfl)
    | _ => rfl
  | txt i =>
    cases l' with
    | txt i' => exact Vector.getElem_set_ne i.isLt i'.isLt fun e => hne (congrArg Loc.txt (Fin.ext e.symm))
    | _ => rfl
  | txtLen j =>
    cases l' with
    | txtLen j' => exact digitBE_setDigitBE_ne (w := 8) (n := 2) s.txtLen (fun e => hne (congrArg Loc.txtLen e)) d
    | _ => rfl
  | tsIn j =>
    cases l' with
    | tsIn j' => exact digitBE_setDigitBE_ne (w := 8) (n := 8) s.tsIn (fun e => hne (congrArg Loc.tsIn e)) d
    | _ => rfl
  | _ => cases hl

/-! ### WRTS (R95) -/

/-- The listed digits of `v` written over those of `x`, one after the other. -/
def copyDigits (v : BitVec (8 * 8)) (js : List (Fin 8)) (x : BitVec (8 * 8)) : BitVec (8 * 8) :=
  js.foldl (fun y j => setDigitBE 8 8 y j (digitBE 8 8 v j)) x

theorem digitBE_copyDigits (v : BitVec (8 * 8)) (js : List (Fin 8)) (x : BitVec (8 * 8)) (k : Fin 8) :
    digitBE 8 8 (copyDigits v js x) k = if k ∈ js then digitBE 8 8 v k else digitBE 8 8 x k := by
  induction js generalizing x with
  | nil => rfl
  | cons j js ih =>
    rw [copyDigits, List.foldl_cons, ← copyDigits, ih]
    by_cases hk : k = j
    · subst hk
      simp
    · simp [hk, digitBE_setDigitBE_ne]

/-- Writing every digit of `v` leaves `v`. -/
theorem copyDigits_all (v x : BitVec (8 * 8)) : copyDigits v (List.finRange 8) x = v := by
  rw [← joinBE_digitBE (copyDigits v (List.finRange 8) x), ← joinBE_digitBE v]
  congr 1
  funext k
  simp [digitBE_copyDigits]

/-- Byte `j` of TS_IN stands at 0x30 + j (R61). -/
theorem locOf_tsIn_span (j : Fin 8) : locOf (0x30#8 + BitVec.ofNat 8 j.val) = .tsIn j := by
  revert j
  decide

/-- HWRs to bytes of TS_IN, one after the other while idle, copy those bytes (R122). -/
theorem run_hwr_tsIn (v : BitVec 64) (ts : List Turn) (js : List (Fin 8)) {s : State} (hr : s.rst = false)
    (hb : s.busy = false)
    (hts : s.turns = js.map (fun j => .host (Pseudo.hwr (0x30#8 + BitVec.ofNat 8 j.val) (digitBE 8 8 v j))) ++ ts) :
    Sys2Proof.core.run js.length s = .next { s with tsIn := copyDigits v js s.tsIn, turns := ts } := by
  induction js generalizing s with
  | nil =>
    obtain rfl : s.turns = ts := hts
    rfl
  | cons j js ih =>
    rw [List.map_cons, List.cons_append] at hts
    have hstep := step_hwr hts hr hb (decodeBus_busWord_true _ _) (locOf_tsIn_span j)
    rw [List.length_cons, run_succ_of_step hstep]
    exact ih hr hb rfl

/-! ### A whole PACK (R141) -/

/-- The byte put at index `n` extends the first `n` bytes. -/
theorem take_set_succ {n : Nat} (b : Vector Byte 10) (e : Byte) (h : n < 10) :
    (b.set n e).toList.take (n + 1) = b.toList.take n ++ [e] := by
  rw [Vector.toList_set, List.take_add_one, List.take_set_of_le (Nat.le_refl n)]
  simp [h]

/-- As many unit turns as bytes are listed take them in order, up to ten. -/
theorem run_pack_bytes (rest l : List Byte) {s : State} (hr : s.rst = false) (hb : s.busy = true)
    (hp : s.pendCmd = 0x01#8) (hts : s.turns = []) (hport : s.entPort = l ++ rest)
    (hlen : s.entCnt.val + l.length ≤ 10) :
    ∃ (buf : Vector Byte 10) (n : Fin 11), n.val = s.entCnt.val + l.length ∧
      buf.toList.take n.val = s.entBuf.toList.take s.entCnt.val ++ l ∧
      Sys2Proof.core.run l.length s =
        .next { s with entBuf := buf, entCnt := n, entTotal := s.entTotal + l.length, entPort := rest } := by
  induction l generalizing s with
  | nil =>
    obtain rfl : s.entPort = rest := hport
    exact ⟨s.entBuf, s.entCnt, rfl, (List.append_nil _).symm, rfl⟩
  | cons e l ih =>
    rw [List.length_cons] at hlen
    rw [List.cons_append] at hport
    have hc : s.entCnt.val < 10 := by omega
    have hstep := (step_of_pack hr hb hp hts).trans (exec_pack_of_byte hb hc hport)
    obtain ⟨buf, n, hn, hbuf, hrun⟩ := ih (s := s.takeEntropy hc e (l ++ rest)) hr hb hp hts rfl
      (by simp only [State.takeEntropy_entCnt]; omega)
    refine ⟨buf, n, ?_, ?_, ?_⟩
    · simp only [State.takeEntropy_entCnt] at hn
      rw [hn, List.length_cons]
      omega
    · rw [hbuf, State.takeEntropy_entBuf, State.takeEntropy_entCnt, take_set_succ, List.append_assoc]
      rfl
    · rw [List.length_cons, run_succ_of_step hstep, hrun, State.takeEntropy_entTotal, Nat.add_assoc, Nat.add_comm 1]
      rfl

/-- The timestamp bytes of a packed value, joined (R142). -/
theorem joinBE_packValue (v : BitVec 64) (e : Vector Byte 10) :
    joinBE (fun k : Fin 6 => (packValue v e)[k.val]) = ts48 v := by
  have hbytes : (fun k : Fin 6 => (packValue v e)[k.val]) = digitBE 8 6 (ts48 v) := by
    funext k
    rw [getElem_packValue_timestamp, digitBE_ts48]
  exact hbytes ▸ joinBE_digitBE (w := 8) (n := 6) (ts48 v)

theorem toNat_ts48 (v : BitVec 64) : (ts48 v).toNat = v.toNat % 2 ^ 48 := by
  rw [ts48, BitVec.extractLsb'_toNat, Nat.shiftRight_zero]

end Sys2Proof.Machine

namespace Sys2Proof.Proofs

open Sys2Proof.Machine

/-- Settles O10: the map tells the addresses apart, and the view shows BIN[a] at 0x3A + a alone. -/
theorem hwrFrameThroughReads : Obligations.HwrFrameThroughReads := by
  intro s a d hb ha
  have hdata := isData_locOf ha
  have hres : locOf a ≠ .reserved := fun e => by simp [e, Loc.isData] at hdata
  refine ⟨_, exec_hwr_of_idle hb a d, readLoc_writeLoc_same s d hdata, fun b hne hview => ?_, fun b ha5 hb3A => ?_⟩
  · refine readLoc_writeLoc_ne s d hdata (fun e => hne ?_) fun k j hk hj => ?_
    · apply BitVec.eq_of_toNat_eq
      rw [toNat_eq_addr hres, toNat_eq_addr (e ▸ hres), e]
    · have haddr := toNat_eq_addr hres
      have hbddr := toNat_eq_addr (a := b) (by simp [hj])
      rw [hk, Loc.addr] at haddr
      rw [hj, Loc.addr] at hbddr
      omega
  · have hla : locOf a = .bin ⟨a.toNat, by omega⟩ := locOf_bin _ rfl
    have hlb : locOf b = .tsOut ⟨a.toNat + 2, by omega⟩ := locOf_tsOut _ (by simp only; omega)
    rw [writeByte_of_locOf s d hla, readByte_of_locOf _ hlb]
    exact readLoc_tsOut_setBin s d ⟨a.toNat, by omega⟩

/-- Settles O14: the expansion writes every byte of TS_IN once. -/
theorem wrtsWritesTsIn : Obligations.WrtsWritesTsIn := by
  intro s v ts hr hb hts
  rw [Pseudo.wrts, Pseudo.span, List.map_map] at hts
  have hrun := run_hwr_tsIn v ts (List.finRange 8) hr hb hts
  rw [copyDigits_all] at hrun
  exact hrun

/-- Settles O21: the timestamp bytes of the packed value, joined, are TS_IN[47:0]. -/
theorem tsOutAfterPack : Obligations.TsOutAfterPack := by
  intro s hb h10
  refine ⟨_, exec_pack_of_ten hb h10, ?_⟩
  rw [toNat_tsOut, joinBE_packValue, toNat_ts48]

/-- Settles O22: the first byte that differs is one of the six timestamp bytes. -/
theorem packKeepsTimestampOrder : Obligations.PackKeepsTimestampOrder := by
  intro s₁ s₂ hb₁ hb₂ h₁ h₂ hlt
  refine ⟨_, _, exec_pack_of_ten hb₁ h₁, exec_pack_of_ten hb₂ h₂, ?_⟩
  rw [← toNat_ts48, ← toNat_ts48, ← joinBE_packValue s₁.tsIn s₁.entBuf, ← joinBE_packValue s₂.tsIn s₂.entBuf] at hlt
  obtain ⟨k, heq, hk⟩ := exists_digit_lt_of_joinBE_lt hlt
  exact ⟨⟨k.val, by omega⟩, fun j hj => heq ⟨j.val, lt_trans hj k.isLt⟩ hj, hk⟩

/-- Settles O23: ten unit turns take the bytes and the eleventh commits. -/
theorem packConsumesTenBytes : Obligations.PackConsumesTenBytes := by
  intro s es rest hr hb hp hcnt hts hport
  have hlen : es.toList.length = 10 := es.length_toList
  obtain ⟨buf, n, hn, hbuf, hrun⟩ := run_pack_bytes rest es.toList hr hb hp hts hport (by simp [hcnt])
  obtain rfl : n = 10 := Fin.ext (by rw [hn, hlen, hcnt]; rfl)
  obtain rfl : buf = es := by
    rw [hcnt, List.take_of_length_le (by simp)] at hbuf
    exact Vector.toList_inj.mp hbuf
  rw [hlen] at hrun
  let s' : State := { s with entCnt := 10, entBuf := buf, entTotal := s.entTotal + 10, entPort := rest }
  have hcommit := (step_of_pack (s := s') hr hb hp hts).trans (exec_pack_of_ten hb rfl)
  refine ⟨packValue s.tsIn buf, ?_, getElem_packValue_timestamp s.tsIn buf, getElem_packValue_entropy s.tsIn buf⟩
  exact (run_add_of_run 1 hrun).trans (run_succ_of_step hcommit 0)

end Sys2Proof.Proofs

end

section
/-! PROOFS. The codec end to end: order (R22, R163), ENCODE then DECODE (R186), DECODE then ENCODE (R187), and TS_OUT after
a DECODE (R212). -/

namespace Sys2Proof.Machine

/-! ### Leading digits -/

/-- The number in the first `m` of `m + d` digits is the whole number without its last `d` digits. -/
theorem toNat_joinBE_castAdd {w m : Nat} (d : Nat) (f : Fin (m + d) → BitVec w) :
    (joinBE fun k : Fin m => f (k.castAdd d)).toNat = (joinBE f).toNat / 2 ^ (w * d) := by
  induction d with
  | zero =>
    rw [Nat.mul_zero, pow_zero, Nat.div_one]
    rfl
  | succ d ih =>
    have hlast := (f (Fin.last (m + d))).isLt
    calc (joinBE fun k : Fin m => f (k.castAdd (d + 1))).toNat
        = (joinBE fun k : Fin (m + d) => f k.castSucc).toNat / 2 ^ (w * d) := ih fun k => f k.castSucc
      _ = (joinBE f).toNat / 2 ^ w / 2 ^ (w * d) := by
        rw [toNat_joinBE_succ (n := m + d), Nat.mul_comm _ (2 ^ w), Nat.mul_add_div (Nat.two_pow_pos w),
          Nat.div_eq_of_lt hlast, Nat.add_zero]
      _ = (joinBE f).toNat / 2 ^ (w * (d + 1)) := by
        rw [Nat.div_div_eq_div_mul, ← pow_add, Nat.mul_succ, Nat.add_comm w]

/-- TS_OUT is the numeric reading without its last ten bytes (R210). -/
theorem toNat_tsOut_eq_div (b : Identifier) : (tsOut b).toNat = (numeric b).toNat / 2 ^ 80 := by
  rw [toNat_tsOut]
  exact toNat_joinBE_castAdd (m := 6) 10 fun k : Fin 16 => b[k.val]

/-! ### Order (R22, R163) -/

theorem bytesLt_iff_numeric_lt (a b : Identifier) : bytesLt a b ↔ (numeric a).toNat < (numeric b).toNat :=
  ⟨fun ⟨k, heq, hlt⟩ => joinBE_lt k heq hlt, fun h => exists_digit_lt_of_joinBE_lt h⟩

/-- The symbols joined are the number in the bytes. -/
theorem toNat_joinBE_symbolOf (b : Identifier) : (joinBE (symbolOf b)).toNat = (numeric b).toNat := by
  rw [joinBE_symbolOf, BitVec.toNat_setWidth, Nat.mod_eq_of_lt]
  have := (numeric b).isLt
  omega

/-- The first symbol that differs decides, and EncROM keeps its order (R92). -/
theorem bytesLt_textOf {a b : Identifier} (h : bytesLt a b) : bytesLt (textOf a) (textOf b) := by
  rw [bytesLt_iff_numeric_lt, ← toNat_joinBE_symbolOf, ← toNat_joinBE_symbolOf] at h
  obtain ⟨k, heq, hlt⟩ := exists_digit_lt_of_joinBE_lt h
  refine ⟨k, fun j hj => ?_, ?_⟩
  · rw [getElem_textOf, getElem_textOf, heq j hj]
  · rw [getElem_textOf, getElem_textOf]
    exact encRom_lt _ _ hlt

/-! ### ENCODE then DECODE (R186) -/

theorem charSymbol_encRom (p : Params) (x : Symbol) : charSymbol p (encRom x) = x := by
  rw [charSymbol, decRom_encRom, romSymbol, BitVec.extractLsb'_setWidth_of_le (by decide), BitVec.extractLsb'_eq_self]

/-- Every symbol's character is good, and symbol 0 has the pad's two zeros (R162). -/
theorem goodAt_textOf (p : Params) (b : Identifier) (i : Fin 26) : goodAt p (textOf b) i := by
  have hrom : decRom p.lowercase (textOf b)[i.val] = (symbolOf b i).setWidth 8 := by
    rw [getElem_textOf, decRom_encRom]
  have hnat : (decRom p.lowercase (textOf b)[i.val]).toNat = (symbolOf b i).toNat := by
    rw [hrom, BitVec.toNat_setWidth]
    omega
  refine ⟨fun hff => ?_, fun hi _ => ?_⟩
  · rw [hff, BitVec.toNat_ofNat] at hnat
    have := (symbolOf b i).isLt
    omega
  · subst hi
    obtain ⟨-, -, symbolOf_zero, -⟩ := Proofs.symbolBitsOfBytes b
    rw [hnat, symbolOf_zero, BitVec.toNat_append]
    have := (b[0].extractLsb' 5 3).isLt
    simp
    omega

/-- The assembled symbols of an identifier value are that value (R86, R87). -/
theorem assemble_symbolOf (b : Identifier) : assemble (symbolOf b) = b := by
  rw [assemble, joinBE_symbolOf, BitVec.setWidth_setWidth_of_le _ (by decide), BitVec.setWidth_eq, ofNumeric_numeric]

theorem valueOf_textOf (p : Params) (b : Identifier) : valueOf p (textOf b) = b := by
  have hsym : (fun i : Fin 26 => charSymbol p (textOf b)[i.val]) = symbolOf b := by
    funext i
    rw [getElem_textOf, charSymbol_encRom]
  rw [valueOf, hsym, assemble_symbolOf]

/-- DECODE of the text form of a value commits that value (R186). -/
theorem exec_decode_of_textOf {s : State} {b : Identifier} (hb : s.busy = true) (hlen : s.txtLen = 26#16)
    (htxt : s.txt = textOf b) :
    exec .decode s = .next { s with bin := b, errCode := .none, errPos := 0xFF#8, busy := false } := by
  rw [exec_decode_of_good hb (congrArg BitVec.toNat hlen) (htxt ▸ goodAt_textOf s.params b), htxt, valueOf_textOf]

/-! ### DECODE then ENCODE (R187) -/

/-- Symbols 1 to 25 come back from the assembled value. -/
theorem symbolOf_assemble (y : Fin 26 → Symbol) {i : Fin 26} (hi : i ≠ 0) : symbolOf (assemble y) i = y i := by
  have hpos : i.val ≠ 0 := fun h => hi (Fin.ext h)
  rw [symbolOf_eq_extractLsb', assemble, numeric_ofNumeric, BitVec.extractLsb'_setWidth_of_le (by omega), ← digitBE_joinBE y i,
    digitBE]
  congr 1
  omega

/-- Symbol 0 comes back without the two bits that do not fit (R183). -/
theorem symbolOf_assemble_zero (y : Fin 26 → Symbol) : symbolOf (assemble y) 0 = 0#2 ++ (y 0).extractLsb' 0 3 := by
  rw [symbolOf_eq_extractLsb']
  refine extractLsb'_eq_append (a := 2) (b := 3) (extractLsb'_numeric_pad _) ?_
  rw [assemble, numeric_ofNumeric, BitVec.extractLsb'_setWidth_of_le (by decide)]
  exact extractLsb'_joinBE y 0 0 3 (by decide)

/-- The code of a good character's symbol is the character, in upper case (R89). -/
theorem encRom_charSymbol {p : Params} {c : Byte} (h : decRom p.lowercase c ≠ 0xFF#8) :
    encRom (charSymbol p c) = if c.toNat < 0x61 then c else c - 0x20#8 := by
  obtain hff | ⟨hlt, hc⟩ | ⟨-, hle, -, hc⟩ := decRom_char_cases p.lowercase c
  · exact absurd hff h
  · rw [if_pos hlt]
    exact hc
  · rw [if_neg (Nat.not_lt.mpr hle)]
    exact hc

/-- A good character 0 comes back exactly when its symbol fits in 3 bits and it is no lowercase letter. -/
theorem encRom_masked_eq_iff : ∀ (low : Bool) (c : Byte), decRom low c ≠ 0xFF#8 →
    (encRom (0#2 ++ (decRom low c).extractLsb' 0 3) = c ↔ (decRom low c).toNat ≤ 7 ∧ c.toNat < 0x61) := by
  decide

/-- A letter's two codes differ. -/
theorem sub_0x20_ne (c : Byte) : c - 0x20#8 ≠ c := by
  revert c
  decide

/-- The three low bits of a symbol are those of its DecROM word (R90). -/
theorem extractLsb'_charSymbol (p : Params) (c : Byte) :
    (charSymbol p c).extractLsb' 0 3 = (decRom p.lowercase c).extractLsb' 0 3 := by
  ext i hi
  simp [charSymbol, romSymbol]

theorem getElem_textOf_valueOf_zero (p : Params) (x : Text) :
    (textOf (valueOf p x))[0] = encRom (0#2 ++ (decRom p.lowercase x[0]).extractLsb' 0 3) := by
  rw [getElem_textOf, valueOf, ← extractLsb'_charSymbol]
  exact congrArg encRom (symbolOf_assemble_zero _)

section

variable {p : Params} {x : Text} (hg : ∀ i, goodAt p x i)
include hg

theorem getElem_textOf_valueOf {i : Fin 26} (hi : i ≠ 0) :
    (textOf (valueOf p x))[i.val] = if x[i.val].toNat < 0x61 then x[i.val] else x[i.val] - 0x20#8 := by
  rw [getElem_textOf, valueOf, symbolOf_assemble _ hi]
  exact encRom_charSymbol (hg i).1

/-- A text comes back as it was exactly when nothing in it is normalised (R187). -/
theorem textOf_valueOf_eq_iff :
    textOf (valueOf p x) = x ↔ (decRom p.lowercase x[0]).toNat ≤ 7 ∧ ∀ i : Fin 26, x[i.val].toNat < 0x61 := by
  have hzero := encRom_masked_eq_iff p.lowercase x[0] (hg 0).1
  rw [← getElem_textOf_valueOf_zero] at hzero
  refine ⟨fun h => ?_, fun ⟨h7, hup⟩ => Vector.ext fun i hi => ?_⟩
  · rw [h] at hzero
    obtain ⟨h7, hup0⟩ := hzero.mp rfl
    refine ⟨h7, fun i => ?_⟩
    by_cases hi : i = 0
    · subst hi
      exact hup0
    · have hchar := getElem_textOf_valueOf hg hi
      rw [h] at hchar
      by_contra hlow
      rw [if_neg hlow] at hchar
      exact sub_0x20_ne _ hchar.symm
  · by_cases h0 : i = 0
    · subst h0
      exact hzero.mpr ⟨h7, hup 0⟩
    · rw [getElem_textOf_valueOf hg (i := ⟨i, hi⟩) (fun e => h0 (congrArg Fin.val e)), if_pos (hup ⟨i, hi⟩)]

end

/-- TS_OUT of a decoded text is its first ten symbols' number, without the bits that do not fit (R212). -/
theorem toNat_tsOut_valueOf (p : Params) (x : Text) :
    (tsOut (valueOf p x)).toNat = (joinBE fun i : Fin 10 => charSymbol p x[i.val]).toNat % 2 ^ 48 := by
  have hten := toNat_joinBE_castAdd (m := 10) 16 fun i : Fin 26 => charSymbol p x[i.val]
  rw [toNat_tsOut_eq_div, valueOf, assemble, numeric_ofNumeric, BitVec.toNat_setWidth,
    show 2 ^ 128 = 2 ^ 80 * 2 ^ 48 by decide, Nat.mod_mul_right_div_self]
  exact congrArg (· % 2 ^ 48) hten.symm

/-! ### Two commands, the second given after the first has committed -/

/-- The unit's commit, the host's HWR to CMD and the unit's commit of that command. -/
theorem run_two_commits {s s' t : State} {w : BusWord} {d : Byte} {i : Instr} {ts : List Turn}
    (hr : s.rst = false) (hb : s.busy = true) (hts : s.turns = .unit :: .host w :: .unit :: ts) (hw : decodeBus w = .hwr 0x40#8 d)
    (hi : decodeCmd s.pendCmd = i) (hfirst : exec i (s.setTurns (.host w :: .unit :: ts)) = .next s')
    (hr' : s'.rst = false) (hb' : s'.busy = false) (hts' : s'.turns = .host w :: .unit :: ts)
    (hsecond : exec (decodeCmd d) ((s'.setTurns ts).accept d) = .next t) : Sys2Proof.core.run 3 s = .next t := by
  have hcommit := (step_unit_of_pending (.inr hts) hr hb).trans (hi ▸ hfirst)
  have haccept := step_accept hts' hr' hb' hw
  have hlast := (step_unit_of_pending (s := (s'.setTurns (.unit :: ts)).accept d) (.inr rfl) hr' rfl).trans hsecond
  rw [run_succ_of_step hcommit, run_succ_of_step haccept, run_succ_of_step hlast, run_zero]

end Sys2Proof.Machine

namespace Sys2Proof.Proofs

open Sys2Proof.Machine

/-- Settles O29. -/
theorem orderIsNumericOrder : Obligations.OrderIsNumericOrder := bytesLt_iff_numeric_lt

/-- Settles O28. -/
theorem encodeKeepsOrder : Obligations.EncodeKeepsOrder := fun _ _ hb₁ hb₂ h =>
  ⟨_, _, exec_encode_of_busy hb₁, exec_encode_of_busy hb₂, bytesLt_textOf h⟩

/-- Settles O35: both commit one result, which sets the status, and BIN unless it is an error. -/
theorem decodeDependsOnTextOnly : Obligations.DecodeDependsOnTextOnly := by
  intro s₁ s₂ hb₁ hb₂ hlen htxt hp
  have he₂ := exec_decode_of_busy hb₂
  rw [← hlen, ← htxt, ← hp] at he₂
  refine ⟨_, _, exec_decode_of_busy hb₁, he₂, ?_⟩
  obtain he | ⟨i, he⟩ | he := decodeResult_cases s₁.params s₁.txtLen s₁.txt
  · simp [he]
  · simp [he]
  · simp [he]

/-- Settles O36: ENCODE leaves a text that DECODE accepts, and its value is BIN. -/
theorem encodeThenDecodeKeepsBin : Obligations.EncodeThenDecodeKeepsBin := by
  intro s ts hr hb hp hts
  have hi : decodeCmd s.pendCmd = .encode := congrArg decodeCmd hp
  have hfirst := exec_encode_of_busy (s := s.setTurns (.host 0x14003#17 :: .unit :: ts)) hb
  exact ⟨_, run_two_commits (d := 0x03#8) hr hb hts (by decide) hi hfirst hr rfl rfl
    (exec_decode_of_textOf (b := s.bin) rfl rfl rfl), rfl, rfl, rfl, rfl, rfl⟩

/-- Settles O37: ENCODE writes the text form of the value DECODE has put into BIN. -/
theorem decodeThenEncodeNormalisesText : Obligations.DecodeThenEncodeNormalisesText := by
  intro s ts hr hb hp hlen hg hts
  have hi : decodeCmd s.pendCmd = .decode := congrArg decodeCmd hp
  exact ⟨_, run_two_commits (d := 0x02#8) hr hb hts (by decide) hi (exec_decode_of_good hb hlen hg) hr rfl rfl
    (exec_encode_of_busy rfl),
    textOf_valueOf_eq_iff hg, getElem_textOf_valueOf_zero s.params s.txt, fun i hi => getElem_textOf_valueOf hg hi⟩

/-- Settles O39. -/
theorem tsOutAfterDecode : Obligations.TsOutAfterDecode := fun s hb hlen hg =>
  ⟨_, exec_decode_of_good hb hlen hg, toNat_tsOut_valueOf s.params s.txt⟩

end Sys2Proof.Proofs

end
